-- ==== Sys2Proof/Word.lean ====
section
/-! DEFINITION. The 64-bit word and the three ways the rules read and make one (00_scope.md R6, R7). -/

namespace Sys2Proof

/-- A register, a sequence element, a table entry: 64 bits, two's complement (R5, R7). -/
abbrev Word := BitVec 64

/-- `sint(w)` of R7: the pattern read as a two's complement integer in `[-2^63, 2^63)`. -/
def sint (w : Word) : Int := w.toInt

/-- `uint(w)` of R7: the pattern read as an integer in `[0, 2^64)`. -/
def uint (w : Word) : Nat := w.toNat

/-- `wrap64(v)` of R7: the pattern whose `uint` is `v mod 2^64`. -/
def wrap64 (v : Int) : Word := BitVec.ofInt 64 v

end Sys2Proof
end

