-- ==== Sys2Proof/Config.lean ====
section
/-! DEFINITION. What an instantiation of the block fixes (00_scope.md R5), the addresses of the word spaces
(20_memory.md R50), and the one free value of the model: what a word holds that nothing has written since reset
(10_state.md R34, 93_implementation_defined.md U9). -/

namespace Sys2Proof

/-- The four word spaces that hold tables and buffers (R50). `REG` and `PLAN` are registers of `State`. -/
inductive Space where
  | tw | itw | seq | cbuf
  deriving DecidableEq, Repr

/-- An address of a word space (R50): `(TW, s, i)`, `(ITW, s, i)`, `(SEQ, b, i)`, `(CBUF, pos, k)`. -/
structure Addr where
  space : Space
  hi : Nat
  lo : Nat
  deriving DecidableEq, Repr

/-- The open parameters of R5. They are data of the machine, so a statement about every state holds for every
instantiation of the block (assumption 3). -/
structure Params where
  /-- `NMAX`, the largest transform length and the depth of every buffer and table. -/
  nmax : Nat
  /-- `NPLANS`, the number of plan slots. -/
  nplans : Nat
  /-- `NBUF`, the number of sequence buffers. -/
  nbuf : Nat
  /-- `PRIME_LIMIT`, at and above which `IsPrime` answers false. -/
  primeLimit : Nat
  deriving DecidableEq, Repr

/-- `MOD_MAX = 2^62 - 1`, the largest modulus any operation accepts (R5, D4). -/
def modMax : Int := 4611686018427387903

/-- The constraints of R5 on the open parameters. -/
abbrev Params.Wf (c : Params) : Prop :=
  c.nmax = 2 ^ c.nmax.log2 ∧ 2 ≤ c.nmax ∧ c.nmax ≤ 2 ^ 61 ∧
  1 ≤ c.nplans ∧ c.nplans ≤ 255 ∧ 1 ≤ c.nbuf ∧ c.nbuf ≤ 256 ∧
  2 ^ 31 ≤ c.primeLimit ∧ (c.primeLimit : Int) ≤ modMax + 1

/-- The instantiation the test vectors use (D3; 95_test_vectors.md), with the one figure the document gives for
`PRIME_LIMIT`, about 3.3×10¹⁴ (R95). DESIGN CHOICE, assumption 3: `State.reset` carries it; unsafe only for a claim
about `State.reset` itself. -/
def Config.vectors : Params :=
  { nmax := 8, nplans := 2, nbuf := 8, primeLimit := 330000000000000 }

/-- The unspecified pattern that the `epoch`-th reset left in a word (R34, U9): a free value, about which nothing can
be proved (assumption 2). -/
opaque Config.unspecified : (epoch : Nat) → Addr → Word

end Sys2Proof
end

