-- ==== Sys2Proof/Syntax.lean ====
section
/-! DEFINITION. The eight commands (30_encoding.md R70) with the fields of the command word each uses (R72, R73).
A field is a plain number; `Instr.wf` says it fits its eight bits. -/

namespace Sys2Proof

/-- A command of the block, one constructor per row of the opcode table. -/
inductive Instr where
  /-- `MODMUL` (R110). -/
  | modmul
  /-- `MODPOW` (R111). -/
  | modpow
  /-- `PROOT` (R121). -/
  | proot
  /-- `TWID p<slot>` (R126). -/
  | twid (slot : Nat)
  /-- `BITREV b<dst>` (R142). -/
  | bitrev (dst : Nat)
  /-- `NTTF b<dst>, b<src>, p<slot>` (R145). -/
  | nttf (slot src dst : Nat)
  /-- `NTTI b<dst>, b<src>, p<slot>` (R146). -/
  | ntti (slot src dst : Nat)
  /-- `CRT b<src>, <cnt>` (R161). -/
  | crt (cnt src : Nat)
  deriving DecidableEq, Repr

end Sys2Proof
end

