-- ==== Sys2Proof/WellFormed.lean ====
section
/-! DEFINITION. Which commands have a word: every field fits in eight bits (30_encoding.md R71, R73). A field that fits
but names no resource is well formed; the command then reports `BadSelect` (R73). -/

namespace Sys2Proof

/-- A field of the command word is an unsigned 8-bit integer (R73). -/
def fieldOk (n : Nat) : Bool := decide (n < 256)

/-- The command has an encoding (R71 to R73). -/
def Instr.wf : Instr → Bool
  | .modmul => true
  | .modpow => true
  | .proot => true
  | .twid slot => fieldOk slot
  | .bitrev dst => fieldOk dst
  | .nttf slot src dst => fieldOk slot && fieldOk src && fieldOk dst
  | .ntti slot src dst => fieldOk slot && fieldOk src && fieldOk dst
  | .crt cnt src => fieldOk cnt && fieldOk src

end Sys2Proof
end

