-- ==== Sys2Proof/Decode.lean ====
section
/-! DEFINITION. Decoding the word written to `CMD` and encoding a command (30_encoding.md R71 to R76). -/

namespace Sys2Proof

/-- `bits[hi:lo]` of a word (R7). -/
def bits (w : Word) (hi lo : Nat) : Nat := uint w / 2 ^ lo % 2 ^ (hi + 1 - lo)

/-- Why a word is no command (R74). All three raise `IllegalCommand`; the names are the model's (assumption 13). -/
inductive DecodeError where
  /-- Some bit of 63:32 is set. -/
  | reservedBits
  /-- `OPC` is `0x00` or at least `0x09`. -/
  | unassignedOpcode
  /-- A field that the opcode's row says is 0 is not 0. -/
  | unusedField
  deriving DecidableEq, Repr

/-- One row of R72: the word is the row's command exactly when `w AND mask = pattern`. -/
structure OpRow where
  mask : Word
  pattern : Word
  deriving DecidableEq, Repr

/-- The row of a command (R72; opcode_table.json). -/
def Instr.row : Instr → OpRow
  | .modmul => ⟨0xFFFFFFFFFFFFFFFF, 0x01⟩
  | .modpow => ⟨0xFFFFFFFFFFFFFFFF, 0x02⟩
  | .proot => ⟨0xFFFFFFFFFFFFFFFF, 0x03⟩
  | .twid _ => ⟨0xFFFFFFFFFFFF00FF, 0x04⟩
  | .bitrev _ => ⟨0xFFFFFFFF00FFFFFF, 0x05⟩
  | .nttf _ _ _ => ⟨0xFFFFFFFF000000FF, 0x06⟩
  | .ntti _ _ _ => ⟨0xFFFFFFFF000000FF, 0x07⟩
  | .crt _ _ => ⟨0xFFFFFFFFFF0000FF, 0x08⟩

/-- The eight commands a word could be, its fields taken as they stand: `s = bits[15:8]`, `a = bits[23:16]`,
`d = bits[31:24]`, and `cnt = bits[15:8]` for `CRT` (R73), in the order of R72. -/
def candidates (w : Word) : List Instr :=
  let s := bits w 15 8
  let a := bits w 23 16
  let d := bits w 31 24
  [.modmul, .modpow, .proot, .twid s, .bitrev d, .nttf s a d, .ntti s a d, .crt s a]

/-- The name under which an illegal word is rejected (R74). -/
def rejection (w : Word) : DecodeError :=
  if bits w 63 32 ≠ 0 then .reservedBits
  else if bits w 7 0 = 0 ∨ 9 ≤ bits w 7 0 then .unassignedOpcode
  else .unusedField

/-- `Decode(w)` of R76: the first row that the word matches, in the order of R72. It is total on 64-bit words and reads
nothing but the word. -/
def decode (w : Word) : Except DecodeError Instr :=
  match (candidates w).find? (fun i => w &&& i.row.mask == i.row.pattern) with
  | some i => .ok i
  | none => .error (rejection w)

/-- Assembles the fields of format `C` (R71) with `RSV = 0`. -/
def formatC (opc plan src dst : Nat) : Word :=
  BitVec.ofNat 64 (opc + plan * 2 ^ 8 + src * 2 ^ 16 + dst * 2 ^ 24)

/-- The command word of a command (R72, R77). -/
def encode : Instr → Word
  | .modmul => formatC 0x01 0 0 0
  | .modpow => formatC 0x02 0 0 0
  | .proot => formatC 0x03 0 0 0
  | .twid slot => formatC 0x04 slot 0 0
  | .bitrev dst => formatC 0x05 0 0 dst
  | .nttf slot src dst => formatC 0x06 slot src dst
  | .ntti slot src dst => formatC 0x07 slot src dst
  | .crt cnt src => formatC 0x08 cnt src 0

/-- The command read from an instruction of `nbits` bits `w`, every bit above them 0. -/
def decodeTableWord (nbits w : Nat) : Option Instr :=
  match decode (BitVec.ofNat 64 (w % 2 ^ nbits)) with
  | .ok i => some i
  | .error _ => none

end Sys2Proof
end

