-- ==== Sys2Proof/Machine/State.lean ====
section
/-! DEFINITION. The state of the block (10_state.md R20 to R34), the steps of the host and of the platform that it has
still to perform, the errors a command can report (60_exceptions.md R171), and the ways a step can stop. -/

namespace Sys2Proof.Machine

/-- The error codes of R171 (`OK` is the absence of one). -/
inductive Err where
  | notInvertible | noRootFound | invalidSize | badOperand | badSelect | noModulus | illegalCommand
  deriving DecidableEq, Repr

/-- A location the host can name (R50). `reg r` is `(REG, r)`; `plan s f` is `(PLAN, s, f)`. -/
inductive Loc where
  | reg (r : Nat)
  | plan (s f : Nat)
  | word (a : Addr)
  deriving DecidableEq, Repr

/-- The steps of the host and of the platform (R9, R53, R54, R190). -/
inductive HostStep where
  | write (l : Loc) (w : Word)
  | read (l : Loc)
  | reset
  deriving DecidableEq, Repr

/-- A plan slot but for its two tables (R27): `PLAN_VALID`, `PLAN_N`, `PLAN_P`, `PLAN_NINV`. -/
structure PlanSlot where
  valid : Bool
  n : Word
  p : Word
  ninv : Word
  deriving DecidableEq, Repr

/-- A slot as reset leaves it (R34). -/
def PlanSlot.reset : PlanSlot := { valid := false, n := 0, p := 0, ninv := 0 }

/-- The words of `TW`, `ITW`, `SEQ` and `CBUF` written since reset, at rising addresses. The unit of a space is one
64-bit word, which no rule splits into bytes (R50, R51; assumption 1). -/
abbrev Memory := List (Addr × Word)

/-- The machine. The first seven fields are the block's state; the rest are the model's own (INVENTORY.md, State). -/
structure State where
  /-- `OPA` (R20). -/
  opa : Word
  /-- `OPB` (R20). -/
  opb : Word
  /-- `OPM` (R20). -/
  opm : Word
  /-- `RES` (R20, R22). -/
  res : Word
  /-- `STATUS` (R25). -/
  status : Word
  /-- The plan slots, slot 0 first (R27). -/
  plans : List PlanSlot
  /-- `TW`, `ITW`, `SEQ`, `CBUF` (R27, R30, R31). -/
  mem : Memory
  /-- The parameters of this block (R5), which no step changes (assumption 3). -/
  params : Params
  /-- How many platform resets the machine has seen: which draw an unwritten word holds (R34, assumption 5). -/
  epoch : Nat
  /-- The host's and the platform's steps not yet performed, oldest first (R9, R58; assumption 4). -/
  hostIn : List HostStep
  /-- What the host's reads returned, newest first (R54; assumption 6). -/
  replies : List Word
  deriving DecidableEq, Repr

/-- Reasons a step stops the machine: none. Every host step and every command of the block is total
(93_implementation_defined.md, the sentence after the table of part 1), and an access to an absent location is ignored
or reads 0 (R55). Nobody raises a fault, so there is nothing to call safe or unsafe. -/
inductive Fault where
  deriving DecidableEq, Repr

/-- Reasons a step has no meaning in the model. -/
inductive Refusal where
  /-- Raised by `exec` for a command whose meaning is not written; no arm raises it now. Safe. -/
  | notModelled (mnemonic : String)
  deriving DecidableEq, Repr

/-- The state right after reset (R34, R190): the registers and the plan slots 0, no word written. Nothing is pending
from the host (assumption 4), and the parameters are those of the vectors (assumption 3). -/
def State.reset : State :=
  { opa := 0, opb := 0, opm := 0, res := 0, status := 0
    plans := List.replicate Config.vectors.nplans PlanSlot.reset
    mem := []
    params := Config.vectors
    epoch := 0
    hostIn := []
    replies := [] }

end Sys2Proof.Machine
end

