-- ==== Sys2Proof/Machine/Flags.lean ====
section
/-! DEFINITION. The `STATUS` register: its two fields and what a command leaves in it (10_state.md R25,
60_exceptions.md R171). The block has no other flag. -/

namespace Sys2Proof.Machine

/-- The code of an error (R171). -/
def Err.code : Err → Nat
  | .notInvertible => 1
  | .noRootFound => 2
  | .invalidSize => 3
  | .badOperand => 4
  | .badSelect => 5
  | .noModulus => 6
  | .illegalCommand => 7

/-- `STATUS` after a command: `DONE = 1`, `ERR = code`, every other bit 0 (R25, R172). -/
def statusWord (code : Nat) : Word := BitVec.ofNat 64 (1 + 16 * code)

/-- `STATUS.DONE`, bit 0 (R25). -/
def doneBit (w : Word) : Nat := bits w 0 0

/-- `STATUS.ERR`, bits 7:4 (R25). -/
def errField (w : Word) : Nat := bits w 7 4

end Sys2Proof.Machine
end

