-- ==== Sys2Proof/Machine/Ops.lean ====
section
/-! DEFINITION. The named operations on the state: reading and writing words of the spaces (20_memory.md R50, R63),
the plan slots (10_state.md R27), each register, and the one way a command ends (60_exceptions.md R172; 30_encoding.md
R76). There is no trap and no return from one (R175, R176): ending with an error is all that an exception is here. -/

namespace Sys2Proof.Machine

/-! ### Memory -/

/-- The order in which the cells of a memory stand. -/
def Space.rank : Space → Nat
  | .tw => 0
  | .itw => 1
  | .seq => 2
  | .cbuf => 3

/-- `a` stands before `b`: by space, then by the first index, then by the second. -/
def addrLt (a b : Addr) : Bool :=
  decide (Space.rank a.space < Space.rank b.space) ||
    (decide (a.space = b.space) && (decide (a.hi < b.hi) || (decide (a.hi = b.hi) && decide (a.lo < b.lo))))

/-- The canonical form of a memory: addresses strictly rising. An unlisted address holds no written word, so no entry
can equal what an unlisted address holds. -/
def Memory.wf : Memory → Bool
  | [] => true
  | [_] => true
  | x :: y :: m => addrLt x.1 y.1 && Memory.wf (y :: m)

/-- The word written at an address since reset, if one was. -/
def Memory.get? : Memory → Addr → Option Word
  | [], _ => none
  | (b, v) :: m, a => if a = b then some v else Memory.get? m a

/-- Writes one word (`MemWrite`, R8). -/
def Memory.put : Memory → Addr → Word → Memory
  | [], a, w => [(a, w)]
  | (b, v) :: m, a, w =>
    if a = b then (a, w) :: m
    else if addrLt a b then (a, w) :: (b, v) :: m
    else (b, v) :: Memory.put m a w

/-- Writes consecutive words of one row, from index `i` on. -/
def Memory.putRow (m : Memory) (sp : Space) (hi : Nat) : Nat → List Word → Memory
  | _, [] => m
  | i, w :: ws => Memory.putRow (Memory.put m ⟨sp, hi, i⟩ w) sp hi (i + 1) ws

/-- Writes row after row of one space, from row `hi` on, each from index 0. -/
def Memory.putRows (m : Memory) (sp : Space) : Nat → List (List Word) → Memory
  | _, [] => m
  | hi, r :: rs => Memory.putRows (Memory.putRow m sp hi 0 r) sp (hi + 1) rs

/-- `MemRead` of a word (R8): what was last written there, or else the unspecified pattern that the latest reset left
there (R34, R63; assumption 2). -/
def State.word (s : State) (a : Addr) : Word := (Memory.get? s.mem a).getD (Config.unspecified s.epoch a)

/-- `TW[s][i]` (R27). -/
def State.tw (s : State) (slot i : Nat) : Word := s.word ⟨.tw, slot, i⟩

/-- `ITW[s][i]` (R27). -/
def State.itw (s : State) (slot i : Nat) : Word := s.word ⟨.itw, slot, i⟩

/-- `SEQ[b][i]` (R30). -/
def State.seq (s : State) (b i : Nat) : Word := s.word ⟨.seq, b, i⟩

/-- `CBUF[pos][k]` (R31). -/
def State.cbuf (s : State) (pos k : Nat) : Word := s.word ⟨.cbuf, pos, k⟩

/-! ### Plan slots -/

/-- Slot `i` of a list of slots; a slot beyond the list is as reset leaves it (assumption 14). -/
def slotAt (l : List PlanSlot) (i : Nat) : PlanSlot := l.getD i PlanSlot.reset

/-- Replaces slot `i`, lengthening the list with reset slots if it is too short (assumption 14). -/
def slotSet : List PlanSlot → Nat → PlanSlot → List PlanSlot
  | [], 0, v => [v]
  | [], i + 1, v => PlanSlot.reset :: slotSet [] i v
  | _ :: l, 0, v => v :: l
  | x :: l, i + 1, v => x :: slotSet l i v

/-- The slot `s` of `PLAN` (R27). -/
def State.plan (s : State) (i : Nat) : PlanSlot := slotAt s.plans i

/-! ### Updates, one per field -/

def State.setOpa (s : State) (w : Word) : State := { s with opa := w }
def State.setOpb (s : State) (w : Word) : State := { s with opb := w }
def State.setOpm (s : State) (w : Word) : State := { s with opm := w }
def State.setRes (s : State) (w : Word) : State := { s with res := w }
def State.setStatus (s : State) (w : Word) : State := { s with status := w }
def State.setPlan (s : State) (i : Nat) (v : PlanSlot) : State := { s with plans := slotSet s.plans i v }
def State.setMem (s : State) (m : Memory) : State := { s with mem := m }
def State.setHostIn (s : State) (q : List HostStep) : State := { s with hostIn := q }
def State.pushReply (s : State) (w : Word) : State := { s with replies := w :: s.replies }

/-! ### The end of a command -/

/-- `raise E` (R172): `STATUS` is written and nothing else. -/
def raise (e : Err) (s : State) : State := s.setStatus (statusWord e.code)

/-- The end of a command begun in `s` (R76): on success its writes take effect and `ERR <- 0`, `DONE <- 1`; if it
raised an error, `STATUS` alone is written. -/
def finish (s : State) : Except Err State → State
  | .error e => raise e s
  | .ok t => t.setStatus (statusWord 0)

end Sys2Proof.Machine
end

