-- ==== Sys2Proof/Machine/Kernel.lean ====
section
/-! DEFINITION. The kernel functions (40_kernel_functions.md R90 to R99) and the two searches (42_root_search.md R120,
43_plan_init.md R125). Values are exact integers; a modulus is positive, so Lean's `%` is the floor remainder of R6.
A function that fails answers the error that its command raises. Each loop carries a bound on its passes that its own
arguments give and that it never reaches (assumption 11). -/

namespace Sys2Proof.Machine

/-- The recursion of `Gcd` (R90). -/
def gcdLoop : Nat → Nat → Nat → Nat
  | 0, a, _ => a
  | k + 1, a, b => if b = 0 then a else gcdLoop k b (a % b)

/-- `Gcd(a, b)` (R90): the second argument falls at every call. -/
def gcdOf (a b : Nat) : Nat := gcdLoop (b + 1) a b

/-- The recursion of `Egcd` (R91), on `(b mod a, a)` with base case `a = 0`. -/
def egcdLoop : Nat → Nat → Nat → Nat × Int × Int
  | 0, _, b => (b, 0, 1)
  | k + 1, a, b =>
    if a = 0 then (b, 0, 1)
    else
      let r := egcdLoop k (b % a) a
      (r.1, r.2.2 - ((b / a : Nat) : Int) * r.2.1, r.2.1)

/-- `Egcd(a, b) = (g, x, y)` with `x*a + y*b = g` (R91): the first argument falls at every call. -/
def egcd (a b : Nat) : Nat × Int × Int := egcdLoop a a b

/-- `ModInv(a, m)` for `m >= 1` (R92). -/
def modInv (a m : Int) : Except Err Int :=
  let r := egcd (a % m).toNat m.toNat
  if r.1 = 1 then .ok (r.2.1 % m) else .error .notInvertible

/-- `ModMul(a, b, m)` by its value, which R93 allows as the definition. -/
def modMul (a b m : Int) : Int := a * b % m

/-- The double-and-add loop of R93, `r` and `x` the running words: the way the document forms `ModMul`. No command
calls it; it is there to be compared with `modMul`. -/
def doubleAndAdd : Nat → Int → Int → Nat → Int → Int
  | 0, r, _, _, _ => r
  | k + 1, r, x, y, m =>
    if y = 0 then r
    else doubleAndAdd k (if y % 2 = 1 then (r + x) % m else r) ((x + x) % m) (y / 2) m

/-- `ModMul(a, b, m)` by double-and-add (R93). -/
def modMulByDoubling (a b m : Int) : Int := doubleAndAdd (b % m).toNat 0 (a % m) (b % m).toNat m

/-- The square-and-multiply loop of R94. -/
def powLoop : Nat → Int → Int → Nat → Int → Int
  | 0, r, _, _, _ => r
  | k + 1, r, x, e, m =>
    if e = 0 then r
    else powLoop k (if e % 2 = 1 then modMul r x m else r) (modMul x x m) (e / 2) m

/-- `ModPow(a, e, m)` for `e >= 0` (R94), which never fails. -/
def powMod (a : Int) (e : Nat) (m : Int) : Int := powLoop e (1 % m) (a % m) e m

/-- `ModPow(a, b, m)` (R94): a negative exponent is a power of the inverse. -/
def modPow (a b m : Int) : Except Err Int :=
  if b < 0 then
    match modInv a m with
    | .error e => .error e
    | .ok v => .ok (powMod v (-b).toNat m)
  else .ok (powMod a b.toNat m)

/-- No divisor `d`, from the given one on, with `d * d <= n`. -/
def trialDivision : Nat → Nat → Nat → Bool
  | 0, _, _ => true
  | k + 1, d, n => if n < d * d then true else if n % d = 0 then false else trialDivision k (d + 1) n

/-- `IsPrime(n)` (R95), false below 2 and from `PRIME_LIMIT` on. How it is computed is unobservable (U19). -/
def isPrime (limit : Nat) (n : Int) : Bool :=
  decide (2 ≤ n) && decide (n < limit) && trialDivision n.toNat 2 n.toNat

/-- `while c | r: r <- r div c` (R97). -/
def divideOut : Nat → Nat → Nat → Nat
  | 0, _, r => r
  | k + 1, c, r => if r % c = 0 then divideOut k c (r / c) else r

/-- Appends `c` to the factors and divides it out of the quotient (R97). -/
def takeFactor (c : Nat) (st : List Nat × Nat) : List Nat × Nat := (st.1 ++ [c], divideOut st.2 c st.2)

/-- The sweep of R97 over the candidates 5, 7, 11, 13, …, while the candidate is at most half the running quotient. -/
def factorLoop (limit : Nat) : Nat → Nat → Nat → List Nat × Nat → List Nat × Nat
  | 0, _, _, st => st
  | k + 1, c, stride, st =>
    if c ≤ st.2 / 2 then
      factorLoop limit k (c + stride) (6 - stride)
        (if st.2 % c = 0 ∧ isPrime limit c = true then takeFactor c st else st)
    else st

/-- `FactorUUP(n)` for `1 <= n <= MOD_MAX` (R97). -/
def factorUUP (limit n : Nat) : List Nat :=
  let two := if n % 2 = 0 then takeFactor 2 ([], n) else ([], n)
  let three := if two.2 % 3 = 0 then takeFactor 3 two else two
  let swept := factorLoop limit n 5 2 three
  if 1 < swept.2 then swept.1 ++ [swept.2] else swept.1

/-- `Totient(n)` (R96): `tot <- tot - tot div p` for each distinct prime factor. -/
def totientOf (limit n : Nat) : Nat := (factorUUP limit n).foldl (fun tot p => tot - tot / p) n

/-- `IsPow2(n)` (R99). -/
def isPow2 (n : Int) : Bool := decide (1 ≤ n) && decide (n.toNat = 2 ^ n.toNat.log2)

/-- The test a candidate root must pass (R120): `a^(phi/q)` is not the integer 1 modulo `n`, for every `q`. -/
def rootTest (n phi : Nat) (qs : List Nat) (a : Nat) : Bool :=
  qs.all (fun q => decide (powMod a (phi / q) n ≠ 1))

/-- The linear scan of R120 over a given number of candidates from `a` up. -/
def rootScan (n phi : Nat) (qs : List Nat) : Nat → Nat → Except Err Int
  | 0, _ => .error .noRootFound
  | k + 1, a => if rootTest n phi qs a then .ok a else rootScan n phi qs k (a + 1)

/-- `PrimitiveRoot(n)` for `1 <= n <= MOD_MAX` (R120): the least passing `a` with `2 <= a <= n`. -/
def primitiveRoot (limit n : Nat) : Except Err Int :=
  let phi := totientOf limit n
  rootScan n phi (factorUUP limit phi) (n - 1) 2

/-- The search of R125 from the candidate `n*k + 1` on. -/
def modulusScan (limit n : Nat) : Nat → Nat → Except Err Int
  | 0, _ => .error .noModulus
  | fuel + 1, k =>
    if limit ≤ n * k + 1 ∨ modMax < ((n * k + 1 : Nat) : Int) then .error .noModulus
    else if isPrime limit ((n * k + 1 : Nat) : Int) then .ok ((n * k + 1 : Nat) : Int)
    else modulusScan limit n fuel (k + 1)

/-- `SelectModulus(N)` (R125): the least prime of the form `N*k + 1` below the bounds. -/
def selectModulus (limit n : Nat) : Except Err Int := modulusScan limit n limit 1

end Sys2Proof.Machine
end

