-- ==== Sys2Proof/Machine/Operands.lean ====
section
/-! DEFINITION. The operands of the commands (30_encoding.md R72, R73): the scalar registers read as signed integers,
the fields of a plan slot, the elements of a sequence buffer and the tables. -/

namespace Sys2Proof.Machine

/-- `OPA` as a rule reads it (R21). -/
def State.a (s : State) : Int := sint s.opa

/-- `OPB` as a rule reads it (R21). -/
def State.b (s : State) : Int := sint s.opb

/-- `OPM` as a rule reads it (R21). -/
def State.m (s : State) : Int := sint s.opm

/-- `PLAN_N[s]` as a number of elements (R27). -/
def State.planN (s : State) (slot : Nat) : Nat := (sint (s.plan slot).n).toNat

/-- `PLAN_P[s]` (R27). -/
def State.planP (s : State) (slot : Nat) : Int := sint (s.plan slot).p

/-- `PLAN_NINV[s]` (R27). -/
def State.planNinv (s : State) (slot : Nat) : Int := sint (s.plan slot).ninv

/-- The patterns of `SEQ[b][0 .. n-1]` (R30). -/
def State.seqWords (s : State) (b n : Nat) : List Word := (List.range n).map (s.seq b)

/-- `SEQ[b][0 .. n-1]` read as signed integers (R8). -/
def State.seqInts (s : State) (b n : Nat) : List Int := (List.range n).map (fun i => sint (s.seq b i))

/-- The table `TW[s]` (R27). -/
def State.twTable (s : State) (slot : Nat) : Nat → Int := fun i => sint (s.tw slot i)

/-- The table `ITW[s]` (R27). -/
def State.itwTable (s : State) (slot : Nat) : Nat → Int := fun i => sint (s.itw slot i)

/-- A modulus that a scalar command accepts (R98(b), D15): `1 <= m <= MOD_MAX`. -/
def modulusOk (m : Int) : Bool := decide (1 ≤ m) && decide (m ≤ modMax)

/-- A slot that exists and holds a plan (R73, R145). -/
def State.slotReady (s : State) (slot : Nat) : Bool := decide (slot < s.params.nplans) && (s.plan slot).valid

end Sys2Proof.Machine
end

