-- ==== Sys2Proof/Machine/Crt.lean ====
section
/-! DEFINITION. The command `CRT`, reconstruction from residues (45_crt.md R160 to R163). -/

namespace Sys2Proof.Machine

/-- The product of the primes (R160). -/
def primeProduct (ps : List Int) : Int := ps.foldr (· * ·) 1

/-- The coefficients `Ni` and `d_i` of each prime, for the full product `M` (R160, C2). -/
def crtCoeffs (mprod : Int) : List Int → Except Err (List (Int × Int))
  | [] => .ok []
  | p :: ps =>
    match modInv (mprod / p % p) p with
    | .error e => .error e
    | .ok d =>
      match crtCoeffs mprod ps with
      | .error e => .error e
      | .ok rest => .ok ((mprod / p, d) :: rest)

/-- `acc` of R161: the sum over the plans of `(residue mod p_i) * Ni * d_i`. -/
def crtSum : List Int → List (Int × Int) → List Int → Int
  | p :: ps, c :: cs, r :: rs => r % p * c.1 * c.2 + crtSum ps cs rs
  | _, _, _ => 0

/-- The `count` words of a result, least significant first (R31, R161). -/
def limbs (count : Nat) (v : Int) : List Word :=
  (List.range count).map (fun k => wrap64 (v / (2 ^ (64 * k) : Nat)))

/-- The primes of slots `0 .. cnt-1` (R161). -/
def crtPrimes (s : State) (cnt : Nat) : List Int := (List.range cnt).map s.planP

/-- The residues at one position, from buffers `src .. src+cnt-1` (R161). -/
def crtResidues (s : State) (cnt src pos : Nat) : List Int :=
  (List.range cnt).map (fun i => sint (s.seq (src + i) pos))

/-- The reconstructed value at one position, in `[0, M)` (R161). -/
def crtValue (s : State) (cnt src : Nat) (coeffs : List (Int × Int)) (pos : Nat) : Int :=
  crtSum (crtPrimes s cnt) coeffs (crtResidues s cnt src pos) % primeProduct (crtPrimes s cnt)

/-- The writes of a successful `CRT` (R161): entries `0 .. N-1` of `CBUF`, all words of each. -/
def storeCrt (s : State) (cnt src : Nat) (coeffs : List (Int × Int)) : State :=
  s.setMem (Memory.putRows s.mem .cbuf 0
    ((List.range (s.planN 0)).map (fun pos => limbs s.params.nplans (crtValue s cnt src coeffs pos))))

/-- `CRT b<src>, <cnt>` (R161). -/
def execCrt (cnt src : Nat) (s : State) : Host.Outcome State Fault Refusal :=
  .next (finish s
    (if 1 ≤ cnt ∧ cnt ≤ s.params.nplans ∧ src + cnt ≤ s.params.nbuf then
      if (List.range cnt).all (fun i => (s.plan i).valid) then
        if (List.range cnt).all (fun i => decide ((s.plan i).n = (s.plan 0).n)) then
          match crtCoeffs (primeProduct (crtPrimes s cnt)) (crtPrimes s cnt) with
          | .error e => .error e
          | .ok coeffs => .ok (storeCrt s cnt src coeffs)
        else .error .invalidSize
      else .error .badSelect
    else .error .badSelect))

end Sys2Proof.Machine
end

