-- ==== Sys2Proof/Machine/PlanInit.lean ====
section
/-! DEFINITION. The command `TWID`, the initialisation of a plan (43_plan_init.md R125 to R128). -/

namespace Sys2Proof.Machine

/-- `[1, w, w^2, …]` modulo `p`, each entry the one before times `w` (R126), from the entry `t` on. -/
def powersFrom (w p : Int) : Nat → Int → List Int
  | 0, _ => []
  | k + 1, t => t :: powersFrom w p k (modMul t w p)

/-- The first check of R126: `N` a power of two in `[2, NMAX]`. -/
def lengthOk (c : Params) (n : Int) : Bool := decide (2 ≤ n) && decide (n ≤ c.nmax) && isPow2 n

/-- The modulus of the plan (R126): the search's for `psel = 0`, or else `psel` if it passes the search's own test. -/
def chooseModulus (c : Params) (n psel : Int) : Except Err Int :=
  if psel = 0 then selectModulus c.primeLimit n.toNat
  else if (psel - 1) % n = 0 ∧ isPrime c.primeLimit psel = true then .ok psel
  else .error .invalidSize

/-- A plan before it is stored: `p`, `N⁻¹`, `T`, `IT` (R126). -/
structure PlanData where
  p : Int
  ninv : Int
  t : List Int
  it : List Int
  deriving DecidableEq, Repr

/-- From the modulus to the tables (R126). -/
def planFor (c : Params) (n p : Int) : Except Err PlanData :=
  match primitiveRoot c.primeLimit p.toNat with
  | .error e => .error e
  | .ok g =>
    let w := powMod g ((p - 1) / n).toNat p
    match modInv w p with
    | .error e => .error e
    | .ok winv =>
      match modInv n p with
      | .error e => .error e
      | .ok ninv => .ok { p := p, ninv := ninv, t := powersFrom w p n.toNat 1, it := powersFrom winv p n.toNat 1 }

/-- Every check and every computation of `TWID` after the slot number's, in the order of R126. -/
def planInit (c : Params) (n psel : Int) : Except Err PlanData :=
  if lengthOk c n then
    if psel < 0 ∨ modMax < psel then .error .badOperand
    else
      match chooseModulus c n psel with
      | .error e => .error e
      | .ok p => planFor c n p
  else .error .invalidSize

/-- The writes of a successful `TWID` (R126): the four fields of the slot and the first `N` words of its tables. -/
def storePlan (s : State) (slot : Nat) (n : Int) (d : PlanData) : State :=
  (s.setPlan slot { valid := true, n := wrap64 n, p := wrap64 d.p, ninv := wrap64 d.ninv }).setMem
    (Memory.putRow (Memory.putRow s.mem .tw slot 0 (d.t.map wrap64)) .itw slot 0 (d.it.map wrap64))

/-- `TWID p<slot>` (R126). -/
def execTwid (slot : Nat) (s : State) : Host.Outcome State Fault Refusal :=
  .next (finish s
    (if slot < s.params.nplans then
      match planInit s.params s.a s.m with
      | .error e => .error e
      | .ok d => .ok (storePlan s slot s.a d)
    else .error .badSelect))

end Sys2Proof.Machine
end

