-- ==== Sys2Proof/Machine/Scalar.lean ====
section
/-! DEFINITION. The scalar commands `MODMUL`, `MODPOW` (41_modular_arithmetic.md R110, R111) and `PROOT`
(42_root_search.md R121). -/

namespace Sys2Proof.Machine

/-- A command whose result, a function of the modulus in `OPM`, goes to `RES`; the modulus is checked first (R98(b),
R173). -/
def scalarCommand (s : State) (value : Int → Except Err Int) : State :=
  finish s
    (if modulusOk s.m then
      match value s.m with
      | .error e => .error e
      | .ok v => .ok (s.setRes (wrap64 v))
    else .error .badOperand)

/-- `MODMUL` (R110): `RES <- (OPA * OPB) mod OPM`. -/
def execModmul (s : State) : Host.Outcome State Fault Refusal :=
  .next (scalarCommand s (fun m => .ok (modMul s.a s.b m)))

/-- `MODPOW` (R111): `RES <- OPA ^ OPB mod OPM`. -/
def execModpow (s : State) : Host.Outcome State Fault Refusal :=
  .next (scalarCommand s (fun m => modPow s.a s.b m))

/-- `PROOT` (R121): `RES <- PrimitiveRoot(OPM)`. -/
def execProot (s : State) : Host.Outcome State Fault Refusal :=
  .next (scalarCommand s (fun m => primitiveRoot s.params.primeLimit m.toNat))

end Sys2Proof.Machine
end

