-- ==== Sys2Proof/Machine/Transform.lean ====
section
/-! DEFINITION. Bit reversal and the transforms: `BITREV`, `NTTF`, `NTTI` (44_transforms.md R140 to R148). -/

namespace Sys2Proof.Machine

/-- `BitRevIndex(i, e)` (R140): the loop's value after `e` passes. -/
def bitRevIndex (i : Nat) : Nat → Nat
  | 0 => 0
  | e + 1 => 2 * bitRevIndex i e + i / 2 ^ e % 2

/-- `BitRev` by what it leaves (R141): element `i` is the old element `BitRevIndex(i, Log2(N))`. -/
def bitReverse {α : Type} (z : α) (n : Nat) (x : List α) : List α :=
  (List.range n).map (fun i => x.getD (bitRevIndex i n.log2) z)

/-- Swaps two elements of a list (R141). -/
def swapAt {α : Type} (z : α) (x : List α) (i j : Nat) : List α := (x.set i (x.getD j z)).set j (x.getD i z)

/-- `BitRev` by the loop of R141: index `i` and its reverse are swapped where the reverse exceeds `i`. No command calls
it; it is there to be compared with `bitReverse`. -/
def bitReverseBySwaps {α : Type} (z : α) (n : Nat) (x : List α) : List α :=
  (List.range n).foldl
    (fun y i => if i < bitRevIndex i n.log2 then swapAt z y i (bitRevIndex i n.log2) else y) x

/-- One stage, of span `m`, as a function of the whole buffer (R144). -/
def stage (t : Nat → Int) (n : Nat) (p : Int) (m : Nat) (x : List Int) : List Int :=
  (List.range n).map fun j =>
    if j % m < m / 2 then
      (x.getD j 0 + modMul (x.getD (j + m / 2) 0) (t (j % m * (n / m))) p) % p
    else
      (x.getD (j - m / 2) 0 - modMul (x.getD j 0) (t ((j - m / 2) % m * (n / m))) p) % p

/-- `Butterflies` (R143): the stages of span 2, 4, …, N, each complete before the next (R144). -/
def butterflies (t : Nat → Int) (n : Nat) (p : Int) (x : List Int) : List Int :=
  (List.range n.log2).foldl (fun y k => stage t n p (2 ^ (k + 1)) y) x

/-- One pair of a stage (R143): `U` and `V` are read before either position is written. -/
def butterflyPair (tw p : Int) (h : Nat) (x : List Int) (j : Nat) : List Int :=
  let u := x.getD j 0
  let v := modMul (x.getD (j + h) 0) tw p
  (x.set j ((u + v) % p)).set (j + h) ((u - v) % p)

/-- One span of the loops of R143: each twiddle slot `i` in turn, and for each the groups `j = i, i + m, …` below `N`.
No command calls it; it is there to be compared with `stage`. -/
def stageByLoops (t : Nat → Int) (n : Nat) (p : Int) (m : Nat) (x : List Int) : List Int :=
  (List.range (m / 2)).foldl
    (fun y i => (List.range (n / m)).foldl
      (fun z g => butterflyPair (t (i * (n / m))) p (m / 2) z (i + g * m)) y) x

/-- Steps 2 to 4 of the forward transform (R145). -/
def forwardTransform (t : Nat → Int) (n : Nat) (p : Int) (x : List Int) : List Int :=
  (butterflies t n p (bitReverse 0 n x)).map (· % p)

/-- The inverse transform after the copy (R146): the butterflies with the inverse table, then the scaling. -/
def inverseTransform (t : Nat → Int) (n : Nat) (p ninv : Int) (x : List Int) : List Int :=
  (butterflies t n p (bitReverse 0 n x)).map (modMul · ninv p)

/-- Writes `SEQ[b][0 ..]`. -/
def storeSeq (s : State) (b : Nat) (ws : List Word) : State := s.setMem (Memory.putRow s.mem .seq b 0 ws)

/-- `BITREV b<dst>` (R142). -/
def execBitrev (dst : Nat) (s : State) : Host.Outcome State Fault Refusal :=
  .next (finish s
    (if dst < s.params.nbuf then
      if 1 ≤ s.a ∧ s.a ≤ s.params.nmax ∧ isPow2 s.a = true then
        .ok (storeSeq s dst (bitReverse 0 s.a.toNat (s.seqWords dst s.a.toNat)))
      else .error .invalidSize
    else .error .badSelect))

/-- A transform of buffer `src` into buffer `dst` under a plan (R145, R146): the checks, the copy, the result. -/
def transformCommand (slot src dst : Nat) (s : State) (result : List Int → List Int) : State :=
  finish s
    (if slot < s.params.nplans ∧ src < s.params.nbuf ∧ dst < s.params.nbuf then
      if (s.plan slot).valid then
        .ok (storeSeq s dst ((result (s.seqInts src (s.planN slot))).map wrap64))
      else .error .badSelect
    else .error .badSelect)

/-- `NTTF b<dst>, b<src>, p<slot>` (R145). -/
def execNttf (slot src dst : Nat) (s : State) : Host.Outcome State Fault Refusal :=
  .next (transformCommand slot src dst s (forwardTransform (s.twTable slot) (s.planN slot) (s.planP slot)))

/-- `NTTI b<dst>, b<src>, p<slot>` (R146). -/
def execNtti (slot src dst : Nat) (s : State) : Host.Outcome State Fault Refusal :=
  .next (transformCommand slot src dst s
    (inverseTransform (s.itwTable slot) (s.planN slot) (s.planP slot) (s.planNinv slot)))

end Sys2Proof.Machine
end

