-- ==== Sys2Proof/Machine/Dispatch.lean ====
section
/-! DEFINITION. Which meaning each command has (30_encoding.md R70). -/

namespace Sys2Proof.Machine

/-- Runs one command, its write of `STATUS` included (R57, R76). -/
def exec (i : Instr) (s : State) : Host.Outcome State Fault Refusal :=
  match i with
  | .modmul => Sys2Proof.Machine.execModmul s
  | .modpow => Sys2Proof.Machine.execModpow s
  | .proot => Sys2Proof.Machine.execProot s
  | .twid slot => Sys2Proof.Machine.execTwid slot s
  | .bitrev dst => Sys2Proof.Machine.execBitrev dst s
  | .nttf slot src dst => Sys2Proof.Machine.execNttf slot src dst s
  | .ntti slot src dst => Sys2Proof.Machine.execNtti slot src dst s
  | .crt cnt src => Sys2Proof.Machine.execCrt cnt src s

end Sys2Proof.Machine
end

