-- ==== Sys2Proof/Machine/HostInterface.lean ====
section
/-! DEFINITION. The steps of the host and of the platform: `HostWrite`, `HostRead` (20_memory.md R53 to R56), the
execution of the word written to `CMD` (30_encoding.md R76) and `Reset` (70_reset_and_hazards.md R190). -/

namespace Sys2Proof.Machine

/-- The index ranges of the word spaces (R50). -/
def addrInRange (c : Params) (a : Addr) : Bool :=
  match a.space with
  | .tw => decide (a.hi < c.nplans) && decide (a.lo < c.nmax)
  | .itw => decide (a.hi < c.nplans) && decide (a.lo < c.nmax)
  | .seq => decide (a.hi < c.nbuf) && decide (a.lo < c.nmax)
  | .cbuf => decide (a.hi < c.nmax) && decide (a.lo < c.nplans)

/-- `PLAN_VALID` read as a word (R54). -/
def validWord (v : Bool) : Word := if v then 1 else 0

/-- What register `r` of `REG` reads as (R20, R54); `CMD` and a number above 5 read 0. -/
def regRead (s : State) (r : Nat) : Word :=
  match r with
  | 1 => s.status
  | 2 => s.opa
  | 3 => s.opb
  | 4 => s.opm
  | 5 => s.res
  | _ => 0

/-- What field `f` of a slot reads as (R50, R54); a number above 3 reads 0. -/
def slotRead (v : PlanSlot) (f : Nat) : Word :=
  match f with
  | 0 => validWord v.valid
  | 1 => v.n
  | 2 => v.p
  | 3 => v.ninv
  | _ => 0

/-- `HostRead` (R54): the word at a location, 0 at one outside every range (R55). -/
def hostRead (s : State) (l : Loc) : Word :=
  match l with
  | .reg r => regRead s r
  | .plan slot f => if slot < s.params.nplans then slotRead (s.plan slot) f else 0
  | .word a => if addrInRange s.params a then s.word a else 0

/-- `HostWrite` anywhere but `CMD` (R53): `OPA`, `OPB`, `OPM` and the words of `SEQ` take the word; a write to a
read-only or absent location is ignored (R55). -/
def hostWrite (s : State) (l : Loc) (w : Word) : State :=
  match l with
  | .reg 2 => s.setOpa w
  | .reg 3 => s.setOpb w
  | .reg 4 => s.setOpm w
  | .word a => if a.space = .seq ∧ addrInRange s.params a = true then s.setMem (Memory.put s.mem a w) else s
  | _ => s

/-- `Execute(w)` (R76): the command the word encodes, or `IllegalCommand` (R74). -/
def execute (s : State) (w : Word) : Host.Outcome State Fault Refusal :=
  match decode w with
  | .ok i => exec i s
  | .error _ => .next (raise .illegalCommand s)

/-- `Reset` (R190): the registers and slots 0, and a new draw for every word of the spaces (R34). The parameters, the
steps still pending and the replies already given are not the block's to clear. -/
def platformReset (s : State) : State :=
  { opa := 0, opb := 0, opm := 0, res := 0, status := 0
    plans := List.replicate s.params.nplans PlanSlot.reset
    mem := []
    params := s.params
    epoch := s.epoch + 1
    hostIn := s.hostIn
    replies := s.replies }

/-- One step of the host or of the platform (R9). -/
def hostStep (s : State) (h : HostStep) : Host.Outcome State Fault Refusal :=
  match h with
  | .write l w => if l = .reg 0 then execute s w else .next (hostWrite s l w)
  | .read l => .next (s.pushReply (hostRead s l))
  | .reset => .next (platformReset s)

/-- The oldest pending step is taken from the queue and performed; with none pending the block is idle and holds its
state (R58, R181). -/
def nextHostStep (s : State) : Host.Outcome State Fault Refusal :=
  match s.hostIn with
  | [] => .next s
  | h :: rest => hostStep (s.setHostIn rest) h

/-- Puts a write of a command word in front of the pending steps: the bits above `nbits` are 0. -/
def queueCommand (s : State) (nbits w : Nat) : State :=
  s.setHostIn (.write (.reg 0) (BitVec.ofNat 64 (w % 2 ^ nbits)) :: s.hostIn)

end Sys2Proof.Machine
end

