-- ==== Sys2Proof/Machine/Step.lean ====
section
/-! DEFINITION. One step of the machine: one step of the host or of the platform, a command included (00_scope.md R9,
20_memory.md R57). -/

namespace Sys2Proof.Machine

/-- One step of the machine (R9). -/
def step : State → Host.Outcome State Fault Refusal := fun s => nextHostStep s

/-- The state in which the next step runs the command of `nbits` bits `w`: a host about to write it to `CMD`
(assumption 4). -/
def State.withFetchWord (s : State) (nbits w : Nat) : State := queueCommand s nbits w

end Sys2Proof.Machine
end

