-- ==== Sys2Proof/Machine/Pseudo.lean ====
section
/-! DEFINITION. The pseudo-instructions (30_encoding.md R78): host programs, each step of which is a step of the
interface. The block has no command for them. -/

namespace Sys2Proof.Machine

/-- The state after one host step; a host step always answers a next state. -/
def afterHostStep (s : State) (h : HostStep) : State :=
  match hostStep s h with
  | .next t => t
  | .fault _ => s
  | .refused _ => s

/-- `MODINV`: `WR OPB, −1 ; MODPOW`. -/
def pseudoModinv (s : State) : State :=
  afterHostStep (afterHostStep s (.write (.reg 3) (wrap64 (-1)))) (.write (.reg 0) (encode .modpow))

/-- `LDSEQ b<b>, [v0, v1, …]`, from element `i` on. -/
def pseudoLdseqFrom (b : Nat) : Nat → List Int → State → State
  | _, [], s => s
  | i, v :: vs, s => pseudoLdseqFrom b (i + 1) vs (afterHostStep s (.write (.word ⟨.seq, b, i⟩) (wrap64 v)))

/-- `LDSEQ b<b>, [v0, v1, …]`. -/
def pseudoLdseq (b : Nat) (vs : List Int) (s : State) : State := pseudoLdseqFrom b 0 vs s

/-- One element of `PWMUL`: `RD SEQ[x][i]`, `RD SEQ[y][i]`, `WR OPA`, `WR OPB`, `MODMUL`, `RD RES`, `WR SEQ[d][i]`. -/
def pseudoPwmulAt (d x y i : Nat) (s : State) : State :=
  let u := hostRead s (.word ⟨.seq, x, i⟩)
  let s1 := afterHostStep s (.read (.word ⟨.seq, x, i⟩))
  let v := hostRead s1 (.word ⟨.seq, y, i⟩)
  let s2 := afterHostStep s1 (.read (.word ⟨.seq, y, i⟩))
  let s3 := afterHostStep (afterHostStep s2 (.write (.reg 2) u)) (.write (.reg 3) v)
  let s4 := afterHostStep s3 (.write (.reg 0) (encode .modmul))
  let r := hostRead s4 (.reg 5)
  afterHostStep (afterHostStep s4 (.read (.reg 5))) (.write (.word ⟨.seq, d, i⟩) r)

/-- `PWMUL b<d>, b<x>, b<y>, p<slot>, n`: `OPM` takes the plan's prime, then the elements in turn. -/
def pseudoPwmul (d x y slot n : Nat) (s : State) : State :=
  let p := hostRead s (.plan slot 2)
  let s1 := afterHostStep (afterHostStep s (.read (.plan slot 2))) (.write (.reg 4) p)
  (List.range n).foldl (fun z i => pseudoPwmulAt d x y i z) s1

end Sys2Proof.Machine
end

