-- ==== Sys2Proof/Safety.lean ====
section
/-! DEFINITION. The terms claims are stated in: the invariants of the state (10_state.md R25, R27, R28), the reference
meaning of the transforms (44_transforms.md R147), and the value of an entry of `CBUF` (10_state.md R31). -/

namespace Sys2Proof.Machine

/-- What `STATUS` can hold: its reset value, or what a command leaves (R25, R171). -/
def legalStatus (w : Word) : Prop := w = 0 ∨ ∃ c : Nat, c ≤ 7 ∧ w = statusWord c

/-- What `RES` can hold: a value in `[0, MOD_MAX]` (R22). -/
def legalResult (w : Word) : Prop := 0 ≤ sint w ∧ sint w ≤ modMax

/-- What R28 says of a slot that holds a plan, `N`, `p` and `w = TW[s][1]` being read from the slot. -/
structure PlanOk (s : State) (slot : Nat) : Prop where
  /-- (a) `N` is a power of two. -/
  lengthPow2 : ∃ e : Nat, sint (s.plan slot).n = 2 ^ e
  /-- (a) `2 <= N`. -/
  lengthLow : 2 ≤ sint (s.plan slot).n
  /-- (a) `N <= NMAX`. -/
  lengthHigh : sint (s.plan slot).n ≤ s.params.nmax
  /-- (b) `IsPrime(p)`. -/
  prime : isPrime s.params.primeLimit (s.planP slot) = true
  /-- (b) `p <= MOD_MAX`. -/
  modulusHigh : s.planP slot ≤ modMax
  /-- (b) `p mod N = 1`. -/
  modulusForm : s.planP slot % sint (s.plan slot).n = 1
  /-- (c) `w^N mod p = 1`. -/
  rootPower : sint (s.tw slot 1) ^ s.planN slot % s.planP slot = 1
  /-- (c) `w^m mod p` is not 1 for `0 < m < N`. -/
  rootOrder : ∀ m : Nat, m < s.planN slot → 0 < m → sint (s.tw slot 1) ^ m % s.planP slot ≠ 1
  /-- (d) `ITW[s][1]` is `w⁻¹`. -/
  inverseRoot : sint (s.tw slot 1) * sint (s.itw slot 1) % s.planP slot = 1
  /-- (d) `TW[s][i] = w^i mod p`. -/
  table : ∀ i : Nat, i < s.planN slot → sint (s.tw slot i) = sint (s.tw slot 1) ^ i % s.planP slot
  /-- (d) `ITW[s][i] = (w⁻¹)^i mod p`. -/
  inverseTable : ∀ i : Nat, i < s.planN slot → sint (s.itw slot i) = sint (s.itw slot 1) ^ i % s.planP slot
  /-- (e) `(PLAN_NINV[s] * N) mod p = 1`. -/
  lengthInverse : s.planNinv slot * sint (s.plan slot).n % s.planP slot = 1
  /-- (e) `PLAN_NINV[s]` is at least 1. -/
  lengthInverseLow : 1 ≤ s.planNinv slot
  /-- (e) `PLAN_NINV[s]` is below `p`. -/
  lengthInverseHigh : s.planNinv slot < s.planP slot

/-- The plan invariant (R28): every slot whose `PLAN_VALID` is 1 holds a plan. -/
def PlanInvariant (s : State) : Prop :=
  ∀ slot : Nat, slot < s.params.nplans → (s.plan slot).valid = true → PlanOk s slot

/-- `RefNTT` (R147). -/
def refNtt (w p : Int) (n : Nat) (x : Nat → Int) (i : Nat) : Int :=
  (∑ j ∈ Finset.range n, w ^ (i * j) * x j) % p

/-- `RefINTT` (R147), from `w⁻¹` and `N⁻¹`. -/
def refIntt (winv ninv p : Int) (n : Nat) (x : Nat → Int) (i : Nat) : Int :=
  (ninv * ∑ j ∈ Finset.range n, winv ^ (i * j) * x j) % p

/-- The cyclic convolution of two sequences at position `t` (R148(c), R163). -/
def cyclicConvolution (n : Nat) (a b : Nat → Int) (t : Nat) : Int :=
  ∑ i ∈ Finset.range n, ∑ j ∈ Finset.range n, if (i + j) % n = t then a i * b j else 0

/-- The value of entry `pos` of `CBUF` (R31): its words, least significant first. -/
def cbufValue (s : State) (pos : Nat) : Nat :=
  ∑ k ∈ Finset.range s.params.nplans, uint (s.cbuf pos k) * 2 ^ (64 * k)

/-- Every sum `r + x` and `x + x` that the double-and-add loop of R93 forms. -/
def doublingSums : Nat → Int → Int → Nat → Int → List Int
  | 0, _, _, _, _ => []
  | k + 1, r, x, y, m =>
    if y = 0 then []
    else
      (if y % 2 = 1 then [r + x] else []) ++
        (x + x) :: doublingSums k (if y % 2 = 1 then (r + x) % m else r) ((x + x) % m) (y / 2) m

end Sys2Proof.Machine
end

