-- ==== Sys2Proof/Certificates/Slice0/Obligations.lean ====
section
/-! DEFINITION. The statements about the block, from the numbered rules of spec/. `STATUS` values are written as the
test vectors write them: `0x01` is success and `0x(code)1` the error `code` (10_state.md R25, 60_exceptions.md R171). -/

open Sys2Proof Sys2Proof.Machine

/-! ### Encoding -/

/-- R71 to R73, R76: decoding the word of a well-formed command gives the command, whatever its fields. -/
def Obligations.DecodeOfEncodeIsTheCommand : Prop :=
  ∀ i : Instr, i.wf = true → decode (encode i) = .ok i

/-- R72, R74, R76: a word that decodes is the one word of the command it decodes to. -/
def Obligations.EncodeOfDecodeIsTheWord : Prop :=
  ∀ (w : Word) (i : Instr), decode w = .ok i → encode i = w ∧ i.wf = true

/-- R72, R73: a word is a row's command exactly when it has the row's `match` under the row's `mask`, its fields being
bits 15:8, 23:16 and 31:24. -/
def Obligations.CommandExactlyWhenMaskMatches : Prop :=
  ∀ w : Word,
    (decode w = .ok .modmul ↔ w &&& 0xFFFFFFFFFFFFFFFF = 0x01) ∧
    (decode w = .ok .modpow ↔ w &&& 0xFFFFFFFFFFFFFFFF = 0x02) ∧
    (decode w = .ok .proot ↔ w &&& 0xFFFFFFFFFFFFFFFF = 0x03) ∧
    (∀ slot, decode w = .ok (.twid slot) ↔ w &&& 0xFFFFFFFFFFFF00FF = 0x04 ∧ slot = w.toNat / 2 ^ 8 % 2 ^ 8) ∧
    (∀ dst, decode w = .ok (.bitrev dst) ↔ w &&& 0xFFFFFFFF00FFFFFF = 0x05 ∧ dst = w.toNat / 2 ^ 24 % 2 ^ 8) ∧
    (∀ slot src dst, decode w = .ok (.nttf slot src dst) ↔ w &&& 0xFFFFFFFF000000FF = 0x06 ∧
      slot = w.toNat / 2 ^ 8 % 2 ^ 8 ∧ src = w.toNat / 2 ^ 16 % 2 ^ 8 ∧ dst = w.toNat / 2 ^ 24 % 2 ^ 8) ∧
    (∀ slot src dst, decode w = .ok (.ntti slot src dst) ↔ w &&& 0xFFFFFFFF000000FF = 0x07 ∧
      slot = w.toNat / 2 ^ 8 % 2 ^ 8 ∧ src = w.toNat / 2 ^ 16 % 2 ^ 8 ∧ dst = w.toNat / 2 ^ 24 % 2 ^ 8) ∧
    (∀ cnt src, decode w = .ok (.crt cnt src) ↔ w &&& 0xFFFFFFFFFF0000FF = 0x08 ∧
      cnt = w.toNat / 2 ^ 8 % 2 ^ 8 ∧ src = w.toNat / 2 ^ 16 % 2 ^ 8)

/-- R74: exactly the words with an unassigned opcode, a bit of 63:32 set, or a non-zero unused field are illegal, and
writing one to `CMD` leaves `ERR = 7`, `DONE = 1` and nothing else changed. -/
def Obligations.IllegalWordsRaiseIllegalCommand : Prop :=
  ∀ w : Word,
    ((∃ e, decode w = .error e) ↔
      bits w 7 0 = 0 ∨ 9 ≤ bits w 7 0 ∨ bits w 63 32 ≠ 0 ∨
      ((bits w 7 0 = 1 ∨ bits w 7 0 = 2 ∨ bits w 7 0 = 3) ∧ bits w 31 8 ≠ 0) ∨
      (bits w 7 0 = 4 ∧ bits w 31 16 ≠ 0) ∨ (bits w 7 0 = 5 ∧ bits w 23 8 ≠ 0) ∨
      (bits w 7 0 = 8 ∧ bits w 31 24 ≠ 0)) ∧
    ∀ (s : State) (rest : List HostStep), s.hostIn = .write (.reg 0) w :: rest → (∃ e, decode w = .error e) →
      step s = .next { s with hostIn := rest, status := 0x71 }

/-- The words of 30_encoding.md R77 and 95_test_vectors.md section 2.9 decode to the commands they are given for. -/
def Obligations.WordsOfTheSpecDecodeAsListed : Prop :=
  decode 0x0000000000000001 = .ok .modmul ∧ decode 0x0000000000000002 = .ok .modpow ∧
  decode 0x0000000000000003 = .ok .proot ∧ decode 0x0000000000000104 = .ok (.twid 1) ∧
  decode 0x0000000002000005 = .ok (.bitrev 2) ∧ decode 0x0000000001000006 = .ok (.nttf 0 0 1) ∧
  decode 0x0000000003020107 = .ok (.ntti 1 2 3) ∧ decode 0x0000000000040208 = .ok (.crt 2 4)

/-! ### Steps -/

/-- R57, R76: the step in which the host writes a command's word to `CMD` runs that command; the step takes nothing
else but the host's write from the queue (the model's own field, assumption 4). -/
def Obligations.StepRunsTheDecodedCommand : Prop :=
  ∀ (s : State) (rest : List HostStep) (w : Word) (i : Instr),
    s.hostIn = .write (.reg 0) w :: rest → decode w = .ok i → step s = exec i { s with hostIn := rest }

/-- R72, R76: the word of any well-formed command, put in front of the pending steps, is what the next step runs. -/
def Obligations.QueuedCommandRunsNext : Prop :=
  ∀ (s : State) (i : Instr), i.wf = true → step (s.withFetchWord 64 (encode i).toNat) = exec i s

/-- R57 and 93_implementation_defined.md ("every host step and every command is total"): no step faults or refuses; with
nothing pending the block holds its state (R181). -/
def Obligations.EveryStepAnswersANextState : Prop :=
  (∀ s : State, ∃ t, step s = .next t) ∧ ∀ s : State, s.hostIn = [] → step s = .next s

/-- R53, R55: a host write, but to `CMD`, is read back at `OPA`, `OPB`, `OPM` and the words of `SEQ` in range, and is
ignored anywhere else; no other location changes. -/
def Obligations.HostWriteIsReadBack : Prop :=
  ∀ (s : State) (rest : List HostStep) (l : Loc) (w : Word),
    s.hostIn = .write l w :: rest → l ≠ .reg 0 →
      ∃ t, step s = .next t ∧ t.hostIn = rest ∧ t.replies = s.replies ∧ t.params = s.params ∧ t.epoch = s.epoch ∧
        ∀ l' : Loc,
          ((l' = l ∧ (l = .reg 2 ∨ l = .reg 3 ∨ l = .reg 4 ∨
              ∃ b i, l = .word ⟨.seq, b, i⟩ ∧ b < s.params.nbuf ∧ i < s.params.nmax)) → hostRead t l' = w) ∧
          (¬ (l' = l ∧ (l = .reg 2 ∨ l = .reg 3 ∨ l = .reg 4 ∨
              ∃ b i, l = .word ⟨.seq, b, i⟩ ∧ b < s.params.nbuf ∧ i < s.params.nmax)) →
            hostRead t l' = hostRead s l')

/-- R54, R55: a host read returns the word at the location, 0 at `CMD` and at an absent location, and changes nothing of
the block. -/
def Obligations.HostReadReturnsTheWord : Prop :=
  ∀ (s : State) (rest : List HostStep) (l : Loc), s.hostIn = .read l :: rest →
    ∃ v, step s = .next { s with hostIn := rest, replies := v :: s.replies } ∧
      (l = .reg 0 → v = 0) ∧ (l = .reg 1 → v = s.status) ∧ (l = .reg 2 → v = s.opa) ∧ (l = .reg 3 → v = s.opb) ∧
      (l = .reg 4 → v = s.opm) ∧ (l = .reg 5 → v = s.res) ∧ (∀ r, 5 < r → l = .reg r → v = 0) ∧
      (∀ slot f, l = .plan slot f → (s.params.nplans ≤ slot ∨ 3 < f) → v = 0) ∧
      (∀ slot, slot < s.params.nplans →
        (l = .plan slot 0 → v = if (s.plan slot).valid = true then 1 else 0) ∧
        (l = .plan slot 1 → v = (s.plan slot).n) ∧ (l = .plan slot 2 → v = (s.plan slot).p) ∧
        (l = .plan slot 3 → v = (s.plan slot).ninv)) ∧
      (∀ slot i, (l = .word ⟨.tw, slot, i⟩ ∨ l = .word ⟨.itw, slot, i⟩) →
        ((slot < s.params.nplans ∧ i < s.params.nmax) → ∀ a, l = .word a → v = s.word a) ∧
        ((s.params.nplans ≤ slot ∨ s.params.nmax ≤ i) → v = 0)) ∧
      (∀ b i, l = .word ⟨.seq, b, i⟩ →
        ((b < s.params.nbuf ∧ i < s.params.nmax) → v = s.seq b i) ∧
        ((s.params.nbuf ≤ b ∨ s.params.nmax ≤ i) → v = 0)) ∧
      (∀ pos k, l = .word ⟨.cbuf, pos, k⟩ →
        ((pos < s.params.nmax ∧ k < s.params.nplans) → v = s.cbuf pos k) ∧
        ((s.params.nmax ≤ pos ∨ s.params.nplans ≤ k) → v = 0))

/-- R190: a platform reset zeroes the registers and the slots and leaves every other word unspecified (a draw of the
model's own counter, assumption 5); until a `TWID` succeeds, `NTTF`, `NTTI` and `CRT` raise `BadSelect`. -/
def Obligations.PlatformResetLeavesNoPlan : Prop :=
  ∀ (s : State) (rest : List HostStep), s.hostIn = .reset :: rest →
    ∃ t, step s = .next t ∧ t.hostIn = rest ∧ t.replies = s.replies ∧ t.params = s.params ∧
      t.opa = 0 ∧ t.opb = 0 ∧ t.opm = 0 ∧ t.res = 0 ∧ t.status = 0 ∧
      (∀ slot, (t.plan slot).valid = false ∧ (t.plan slot).n = 0 ∧ (t.plan slot).p = 0 ∧ (t.plan slot).ninv = 0) ∧
      (∀ a, t.word a = Config.unspecified (s.epoch + 1) a) ∧
      (∀ slot src dst, exec (.nttf slot src dst) t = .next { t with status := 0x51 } ∧
        exec (.ntti slot src dst) t = .next { t with status := 0x51 }) ∧
      ∀ cnt src, exec (.crt cnt src) t = .next { t with status := 0x51 }

/-- R34: after reset every register and every field of a slot reads 0, and every word of the tables and buffers holds
the unspecified pattern. -/
def Obligations.RegistersAndSlotsReadZeroAfterReset : Prop :=
  (∀ r, hostRead State.reset (.reg r) = 0) ∧ (∀ slot f, hostRead State.reset (.plan slot f) = 0) ∧
  ∀ a, State.reset.word a = Config.unspecified State.reset.epoch a

/-! ### What every command does and does not do -/

/-- R25, R171: every command word written to `CMD` ends with `DONE = 1`, one code of R171 in `ERR` (7 exactly for an
illegal word) and every other bit of `STATUS` 0. -/
def Obligations.EveryCommandWritesStatus : Prop :=
  ∀ (s : State) (rest : List HostStep) (w : Word), s.hostIn = .write (.reg 0) w :: rest →
    ∃ t c, step s = .next t ∧ c ≤ 7 ∧ t.status = BitVec.ofNat 64 (1 + 16 * c) ∧
      (c = 7 ↔ ∃ e, decode w = .error e)

/-- R172: a command that ends with an error changes `STATUS` and nothing else. -/
def Obligations.FailedCommandChangesOnlyStatus : Prop :=
  ∀ (i : Instr) (s t : State), exec i s = .next t → errField t.status ≠ 0 →
    ∃ c, 1 ≤ c ∧ c ≤ 6 ∧ t = { s with status := BitVec.ofNat 64 (1 + 16 * c) }

/-- R21: after any command, successful or not, `OPA`, `OPB`, `OPM` hold what they held before it; nor does a command
touch the model's own fields. -/
def Obligations.CommandsLeaveOperandsAlone : Prop :=
  ∀ (i : Instr) (s t : State), exec i s = .next t →
    t.opa = s.opa ∧ t.opb = s.opb ∧ t.opm = s.opm ∧ t.params = s.params ∧ t.epoch = s.epoch ∧
      t.hostIn = s.hostIn ∧ t.replies = s.replies

/-- R22: only a successful `MODMUL`, `MODPOW` or `PROOT` writes `RES`, with a value in `[0, MOD_MAX]`. -/
def Obligations.ResultRegisterWrittenOnlyOnSuccess : Prop :=
  ∀ (i : Instr) (s t : State), exec i s = .next t →
    (t.res ≠ s.res → (i = .modmul ∨ i = .modpow ∨ i = .proot) ∧ errField t.status = 0) ∧
    ((i = .modmul ∨ i = .modpow ∨ i = .proot) → errField t.status = 0 →
      0 ≤ sint t.res ∧ sint t.res ≤ 2 ^ 62 - 1)

/-- R27: only a successful `TWID` writes a slot, and only the slot it names; no host write reaches a slot, a table or
`CBUF`. -/
def Obligations.SlotsWrittenOnlyByTwid : Prop :=
  (∀ (i : Instr) (s t : State) (k : Nat), exec i s = .next t → t.plan k ≠ s.plan k →
    i = .twid k ∧ errField t.status = 0 ∧ (t.plan k).valid = true) ∧
  ∀ (s t : State) (l : Loc) (w : Word) (rest : List HostStep),
    s.hostIn = .write l w :: rest → l ≠ .reg 0 → step s = .next t →
      t.plans = s.plans ∧ ∀ a, a.space ≠ .seq → t.word a = s.word a

/-- R27, R30, R31, R50: the words each command can change, for every form of every command; all other words keep their
values. -/
def Obligations.CommandsStoreOnlyIntoTheirOwnWords : Prop :=
  ∀ (i : Instr) (s t : State) (a : Addr), exec i s = .next t → t.word a ≠ s.word a →
    match i with
    | .modmul => False
    | .modpow => False
    | .proot => False
    | .twid slot => (a.space = .tw ∨ a.space = .itw) ∧ a.hi = slot ∧ (a.lo : Int) < sint s.opa
    | .bitrev dst => a.space = .seq ∧ a.hi = dst ∧ (a.lo : Int) < sint s.opa
    | .nttf slot _ dst => a.space = .seq ∧ a.hi = dst ∧ (a.lo : Int) < sint (s.plan slot).n
    | .ntti slot _ dst => a.space = .seq ∧ a.hi = dst ∧ (a.lo : Int) < sint (s.plan slot).n
    | .crt _ _ => a.space = .cbuf ∧ (a.hi : Int) < sint (s.plan 0).n ∧ a.lo < s.params.nplans

/-- R25, R196: no command reads `STATUS`; what an earlier command left there has no effect. -/
def Obligations.NoCommandReadsStatus : Prop :=
  ∀ (i : Instr) (s : State) (w : Word), exec i { s with status := w } = exec i s

/-! ### Kernel functions -/

/-- R90, R91: `Gcd` is the greatest common divisor, `Egcd` follows the document's recursion and gives Bezout's
identity. -/
def Obligations.GcdAndEgcdFollowTheDocument : Prop :=
  (∀ a b : Nat, gcdOf a b = Nat.gcd a b) ∧
  (∀ b : Nat, egcd 0 b = (b, 0, 1)) ∧
  (∀ a b : Nat, 0 < a →
    egcd a b = ((egcd (b % a) a).1,
      (egcd (b % a) a).2.2 - ((b / a : Nat) : Int) * (egcd (b % a) a).2.1, (egcd (b % a) a).2.1)) ∧
  ∀ a b : Nat, (egcd a b).1 = Nat.gcd a b ∧
    (egcd a b).2.1 * (a : Int) + (egcd a b).2.2 * (b : Int) = (Nat.gcd a b : Int)

/-- R92: `ModInv` gives the unique inverse in `[0, m)`, and fails exactly when the greatest common divisor is not 1. -/
def Obligations.ModInvIsTheUniqueInverse : Prop :=
  ∀ a m : Int, 1 ≤ m →
    (Int.gcd (a % m) m = 1 → ∃ v, modInv a m = .ok v ∧ 0 ≤ v ∧ v < m ∧ a * v % m = 1 % m ∧
      ∀ u, 0 ≤ u → u < m → a * u % m = 1 % m → u = v) ∧
    (Int.gcd (a % m) m ≠ 1 → modInv a m = .error .notInvertible)

/-- R93: double-and-add gives `(a * b) mod m` and forms no sum above `2 * (m - 1)`, which is at most `2^63 - 4`. -/
def Obligations.DoubleAndAddIsExactAndFits : Prop :=
  ∀ a b m : Int, 1 ≤ m → m ≤ 2 ^ 62 - 1 →
    modMulByDoubling a b m = a * b % m ∧ modMul a b m = a * b % m ∧ 0 ≤ modMul a b m ∧ modMul a b m < m ∧
      ∀ v ∈ doublingSums (b % m).toNat 0 (a % m) (b % m).toNat m,
        0 ≤ v ∧ v ≤ 2 * (m - 1) ∧ 2 * (m - 1) ≤ 2 ^ 63 - 4

/-- R95: `IsPrime(n)` is true exactly for the `n` of `[2, PRIME_LIMIT)` that no `d` with `1 < d < n` divides. -/
def Obligations.IsPrimeIsPrimalityBelowTheLimit : Prop :=
  ∀ (limit : Nat) (n : Int),
    isPrime limit n = true ↔ 2 ≤ n ∧ n < limit ∧ ¬ ∃ d : Int, 1 < d ∧ d < n ∧ d ∣ n

/-- R97: for `1 <= n <= MOD_MAX` the list is exactly the distinct primes of `n`, each once. -/
def Obligations.FactorUUPListsTheDistinctPrimes : Prop :=
  ∀ limit n : Nat, 2 ^ 31 ≤ limit → 1 ≤ n → n ≤ 2 ^ 62 - 1 →
    (factorUUP limit n).Nodup ∧ ∀ q, q ∈ factorUUP limit n ↔ Nat.Prime q ∧ q ∣ n

/-- R96: `Totient` is Euler's function on `[1, MOD_MAX]`. -/
def Obligations.TotientIsEulers : Prop :=
  ∀ limit n : Nat, 2 ^ 31 ≤ limit → 1 ≤ n → n ≤ 2 ^ 62 - 1 → totientOf limit n = Nat.totient n

/-- R99: `IsPow2(n)` is true exactly for the powers of two, and `Log2` is then the exponent. -/
def Obligations.IsPow2AndLog2AreExact : Prop :=
  ∀ n : Int, (isPow2 n = true ↔ ∃ e : Nat, n = 2 ^ e) ∧ ∀ e : Nat, n = 2 ^ e → n.toNat.log2 = e

/-- R125: `SelectModulus(N)` is the least prime of the form `N*k + 1` below the bounds, and fails with `NoModulus` exactly
when there is none. -/
def Obligations.SelectModulusIsTheLeastPrime : Prop :=
  ∀ limit n : Nat, 2 ≤ n →
    (∀ p : Int, selectModulus limit n = .ok p ↔
      (∃ k : Nat, 1 ≤ k ∧ p = n * k + 1) ∧ isPrime limit p = true ∧ p ≤ 2 ^ 62 - 1 ∧
        ∀ k : Nat, 1 ≤ k → (n * k + 1 : Int) < p → isPrime limit (n * k + 1) = false) ∧
    (selectModulus limit n = .error .noModulus ↔
      ∀ k : Nat, 1 ≤ k → isPrime limit (n * k + 1) = true → (2 ^ 62 - 1 : Int) < n * k + 1)

/-! ### Scalar commands -/

/-- R110: `MODMUL`, its word, its result, its error, and that nothing else changes. -/
def Obligations.ModmulWritesTheProduct : Prop :=
  decode 0x0000000000000001 = .ok .modmul ∧ ∀ s : State,
    (1 ≤ sint s.opm ∧ sint s.opm ≤ 2 ^ 62 - 1 →
      ∃ r, exec .modmul s = .next { s with res := r, status := 0x01 } ∧
        sint r = sint s.opa * sint s.opb % sint s.opm ∧ 0 ≤ sint r ∧ sint r < sint s.opm) ∧
    (sint s.opm < 1 ∨ 2 ^ 62 - 1 < sint s.opm → exec .modmul s = .next { s with status := 0x41 })

/-- R111: `MODPOW`, its word, its result for either sign of the exponent, its errors in their order, and that nothing
else changes. -/
def Obligations.ModpowWritesThePower : Prop :=
  decode 0x0000000000000002 = .ok .modpow ∧ ∀ s : State,
    (1 ≤ sint s.opm → sint s.opm ≤ 2 ^ 62 - 1 → 0 ≤ sint s.opb →
      ∃ r, exec .modpow s = .next { s with res := r, status := 0x01 } ∧
        sint r = sint s.opa ^ (sint s.opb).toNat % sint s.opm) ∧
    (1 ≤ sint s.opm → sint s.opm ≤ 2 ^ 62 - 1 → sint s.opb < 0 →
      Int.gcd (sint s.opa % sint s.opm) (sint s.opm) = 1 →
        ∃ r v, exec .modpow s = .next { s with res := r, status := 0x01 } ∧
          0 ≤ v ∧ v < sint s.opm ∧ sint s.opa * v % sint s.opm = 1 % sint s.opm ∧
          sint r = v ^ (-sint s.opb).toNat % sint s.opm) ∧
    (1 ≤ sint s.opm → sint s.opm ≤ 2 ^ 62 - 1 → sint s.opb < 0 →
      Int.gcd (sint s.opa % sint s.opm) (sint s.opm) ≠ 1 → exec .modpow s = .next { s with status := 0x11 }) ∧
    (sint s.opm < 1 ∨ 2 ^ 62 - 1 < sint s.opm → exec .modpow s = .next { s with status := 0x41 })

/-- R112: for `a` coprime to the modulus, `MODINV` and then `MODMUL` of `a` by the inverse leave `1 mod N`. -/
def Obligations.InverseTimesOperandIsOne : Prop :=
  ∀ s : State, 1 ≤ sint s.opm → sint s.opm ≤ 2 ^ 62 - 1 →
    Int.gcd (sint s.opa % sint s.opm) (sint s.opm) = 1 →
      ∃ t, exec .modmul { pseudoModinv s with opb := (pseudoModinv s).res } = .next t ∧
        sint t.res = 1 % sint s.opm ∧ errField t.status = 0

/-- R120, R121: `PROOT` writes the least `a` of `[2, n]` with `a^(φ(n)/q)` not 1 for every prime `q` of `φ(n)`; it reports
`NoRootFound` for `n = 1` and `BadOperand` outside `[1, MOD_MAX]`. -/
def Obligations.ProotWritesTheLeastPassingCandidate : Prop :=
  ∀ s : State, s.params.Wf →
    (∀ n : Nat, sint s.opm = n → 2 ≤ n → n ≤ 2 ^ 62 - 1 →
      ∃ r : Word, ∃ a : Nat, exec .proot s = .next { s with res := r, status := 0x01 } ∧ sint r = a ∧ 2 ≤ a ∧ a ≤ n ∧
        (∀ q, Nat.Prime q → q ∣ Nat.totient n → a ^ (Nat.totient n / q) % n ≠ 1) ∧
        ∀ b, 2 ≤ b → b < a → ∃ q, Nat.Prime q ∧ q ∣ Nat.totient n ∧ b ^ (Nat.totient n / q) % n = 1) ∧
    (sint s.opm = 1 → exec .proot s = .next { s with status := 0x21 }) ∧
    (sint s.opm < 1 ∨ 2 ^ 62 - 1 < sint s.opm → exec .proot s = .next { s with status := 0x41 })

/-- R120: for a prime `n >= 3`, `PROOT` writes the least primitive root of `n`. -/
def Obligations.ProotOfAPrimeIsItsLeastPrimitiveRoot : Prop :=
  ∀ (s : State) (n : Nat), s.params.Wf → Nat.Prime n → 3 ≤ n → n ≤ 2 ^ 62 - 1 → sint s.opm = n →
    ∃ r : Word, ∃ a : Nat, exec .proot s = .next { s with res := r, status := 0x01 } ∧ sint r = a ∧ 2 ≤ a ∧ a < n ∧
      orderOf (a : ZMod n) = n - 1 ∧ ∀ b : Nat, 2 ≤ b → b < a → orderOf (b : ZMod n) ≠ n - 1

/-! ### Plans -/

/-- R126: when `TWID` succeeds and what it builds: for a length and a modulus it accepts, the slot's four fields and its
two tables; every other word, slot and register keeps its value. -/
def Obligations.TwidBuildsThePlan : Prop :=
  ∀ (s : State) (slot e : Nat) (p : Int),
    s.params.Wf → slot < s.params.nplans → 1 ≤ e → sint s.opa = 2 ^ e → sint s.opa ≤ s.params.nmax →
    isPrime s.params.primeLimit p = true → p ≤ 2 ^ 62 - 1 → p % 2 ^ e = 1 →
    (sint s.opm = p ∨ (sint s.opm = 0 ∧
      ∀ k : Nat, 1 ≤ k → (2 ^ e * k + 1 : Int) < p → isPrime s.params.primeLimit (2 ^ e * k + 1) = false)) →
    ∃ (t : State) (g : Nat) (w winv : Int),
      exec (.twid slot) s = .next t ∧ t = { s with plans := t.plans, mem := t.mem, status := 0x01 } ∧
      (t.plan slot).valid = true ∧ (t.plan slot).n = s.opa ∧ sint (t.plan slot).p = p ∧
      sint (t.plan slot).ninv * 2 ^ e % p = 1 ∧ 1 ≤ sint (t.plan slot).ninv ∧ sint (t.plan slot).ninv < p ∧
      2 ≤ g ∧ (g : Int) < p ∧ orderOf (g : ZMod p.toNat) = p.toNat - 1 ∧
      (∀ b : Nat, 2 ≤ b → b < g → orderOf (b : ZMod p.toNat) ≠ p.toNat - 1) ∧
      w = (g : Int) ^ ((p - 1) / 2 ^ e).toNat % p ∧ 0 ≤ winv ∧ winv < p ∧ w * winv % p = 1 ∧
      (∀ i, i < 2 ^ e → sint (t.tw slot i) = w ^ i % p ∧ sint (t.itw slot i) = winv ^ i % p) ∧
      (∀ k, k ≠ slot → t.plan k = s.plan k) ∧
      ∀ a : Addr, ¬ ((a.space = .tw ∨ a.space = .itw) ∧ a.hi = slot ∧ a.lo < 2 ^ e) → t.word a = s.word a

/-- R126, R173: the errors of `TWID` in the order it tests for them, each leaving everything but `STATUS` as it was. -/
def Obligations.TwidReportsErrorsInOrder : Prop :=
  ∀ (s : State) (slot : Nat),
    (s.params.nplans ≤ slot → exec (.twid slot) s = .next { s with status := 0x51 }) ∧
    (slot < s.params.nplans →
      (sint s.opa < 2 ∨ (s.params.nmax : Int) < sint s.opa ∨ ¬ ∃ e : Nat, sint s.opa = 2 ^ e) →
        exec (.twid slot) s = .next { s with status := 0x31 }) ∧
    (∀ e : Nat, slot < s.params.nplans → 1 ≤ e → sint s.opa = 2 ^ e → sint s.opa ≤ s.params.nmax →
      (sint s.opm < 0 ∨ 2 ^ 62 - 1 < sint s.opm → exec (.twid slot) s = .next { s with status := 0x41 }) ∧
      (sint s.opm = 0 →
        (∀ k : Nat, 1 ≤ k → isPrime s.params.primeLimit (2 ^ e * k + 1) = true → (2 ^ 62 - 1 : Int) < 2 ^ e * k + 1) →
          exec (.twid slot) s = .next { s with status := 0x61 }) ∧
      (0 < sint s.opm → sint s.opm ≤ 2 ^ 62 - 1 →
        ((sint s.opm - 1) % 2 ^ e ≠ 0 ∨ isPrime s.params.primeLimit (sint s.opm) = false) →
          exec (.twid slot) s = .next { s with status := 0x31 }))

/-- R127: in a slot that holds a plan, `w^(N/2)` is `p - 1` and `ITW` is `TW` read backwards from index 0. -/
def Obligations.PlanTablesAreEachOthersMirror : Prop :=
  ∀ (s : State) (slot : Nat), PlanOk s slot →
    sint (s.tw slot (s.planN slot / 2)) = s.planP slot - 1 ∧
      ∀ i, i < s.planN slot → s.itw slot i = s.tw slot ((s.planN slot - i) % s.planN slot)

/-- R193, R126: running `TWID` again on the slot it has just built, with the same operands, gives the identical plan. -/
def Obligations.TwidAgainGivesTheSamePlan : Prop :=
  ∀ (s t : State) (slot : Nat), exec (.twid slot) s = .next t → errField t.status = 0 →
    ∃ u, exec (.twid slot) t = .next u ∧ (∀ k, u.plan k = t.plan k) ∧ (∀ a, u.word a = t.word a) ∧
      u.status = 0x01 ∧ u.res = s.res

/-! ### Bit reversal and the transforms -/

/-- R140: bit `t` of the reversed index is bit `e - 1 - t` of the index, and reversing twice gives the index. -/
def Obligations.BitRevIndexReversesTheBits : Prop :=
  ∀ i e : Nat, i < 2 ^ e →
    bitRevIndex i e < 2 ^ e ∧ (∀ t, t < e → (bitRevIndex i e).testBit t = i.testBit (e - 1 - t)) ∧
      bitRevIndex (bitRevIndex i e) e = i

/-- R141: the document's loop of swaps gives the permutation of the model. -/
def Obligations.SwapLoopIsThePermutation : Prop :=
  ∀ (e : Nat) (x : List Word), x.length = 2 ^ e → bitReverseBySwaps 0 (2 ^ e) x = bitReverse 0 (2 ^ e) x

/-- R142: `BITREV`, its words, its result, its errors in their order, and that nothing else changes. -/
def Obligations.BitrevPermutesTheBuffer : Prop :=
  (∀ d : Nat, d < 2 ^ 8 → decode (BitVec.ofNat 64 (0x05 + d * 2 ^ 24)) = .ok (.bitrev d)) ∧
  ∀ (s : State) (dst : Nat),
    (∀ e : Nat, dst < s.params.nbuf → sint s.opa = 2 ^ e → sint s.opa ≤ s.params.nmax →
      ∃ t, exec (.bitrev dst) s = .next t ∧ t = { s with mem := t.mem, status := 0x01 } ∧
        (∀ i, i < 2 ^ e → t.seq dst i = s.seq dst (bitRevIndex i e)) ∧
        ∀ a : Addr, ¬ (a.space = .seq ∧ a.hi = dst ∧ a.lo < 2 ^ e) → t.word a = s.word a) ∧
    (s.params.nbuf ≤ dst → exec (.bitrev dst) s = .next { s with status := 0x51 }) ∧
    (dst < s.params.nbuf →
      (sint s.opa < 1 ∨ (s.params.nmax : Int) < sint s.opa ∨ ¬ ∃ e : Nat, sint s.opa = 2 ^ e) →
        exec (.bitrev dst) s = .next { s with status := 0x31 })

/-- R141: `BITREV` twice with the same length restores every word. -/
def Obligations.BitrevTwiceRestoresTheBuffer : Prop :=
  ∀ (s : State) (dst e : Nat), dst < s.params.nbuf → sint s.opa = 2 ^ e → sint s.opa ≤ s.params.nmax →
    ∃ t u, exec (.bitrev dst) s = .next t ∧ exec (.bitrev dst) t = .next u ∧ ∀ a, u.word a = s.word a

/-- R143, R144: the loops over twiddle slots and groups of one span give the stage of the model. -/
def Obligations.ButterflyLoopsAreTheStage : Prop :=
  ∀ (t : Nat → Int) (e k : Nat) (p : Int) (x : List Int), x.length = 2 ^ e → 1 ≤ k → k ≤ e →
    stageByLoops t (2 ^ e) p (2 ^ k) x = stage t (2 ^ e) p (2 ^ k) x

/-- R145, R147, R148(a): under a valid plan `NTTF` writes the reference transform of the source buffer, every element in
`[0, p)`, and changes nothing else; source and destination may be the same. -/
def Obligations.NttfWritesTheReferenceTransform : Prop :=
  ∀ (s : State) (slot src dst : Nat),
    slot < s.params.nplans → src < s.params.nbuf → dst < s.params.nbuf → (s.plan slot).valid = true → PlanOk s slot →
    ∃ t, exec (.nttf slot src dst) s = .next t ∧ t = { s with mem := t.mem, status := 0x01 } ∧
      (∀ i, i < s.planN slot →
        sint (t.seq dst i) =
            refNtt (sint (s.tw slot 1)) (s.planP slot) (s.planN slot) (fun j => sint (s.seq src j)) i ∧
          0 ≤ sint (t.seq dst i) ∧ sint (t.seq dst i) < s.planP slot) ∧
      ∀ a : Addr, ¬ (a.space = .seq ∧ a.hi = dst ∧ a.lo < s.planN slot) → t.word a = s.word a

/-- R146, R147, R148(a): under a valid plan `NTTI` writes the reference inverse transform of the source buffer, every
element in `[0, p)`, and changes nothing else. -/
def Obligations.NttiWritesTheReferenceInverse : Prop :=
  ∀ (s : State) (slot src dst : Nat),
    slot < s.params.nplans → src < s.params.nbuf → dst < s.params.nbuf → (s.plan slot).valid = true → PlanOk s slot →
    ∃ t, exec (.ntti slot src dst) s = .next t ∧ t = { s with mem := t.mem, status := 0x01 } ∧
      (∀ i, i < s.planN slot →
        sint (t.seq dst i) =
            refIntt (sint (s.itw slot 1)) (s.planNinv slot) (s.planP slot) (s.planN slot)
              (fun j => sint (s.seq src j)) i ∧
          0 ≤ sint (t.seq dst i) ∧ sint (t.seq dst i) < s.planP slot) ∧
      ∀ a : Addr, ¬ (a.space = .seq ∧ a.hi = dst ∧ a.lo < s.planN slot) → t.word a = s.word a

/-- R145, R146, R173: a field out of range or a slot without a plan is `BadSelect`, and nothing but `STATUS` changes. -/
def Obligations.TransformsRejectBadSelections : Prop :=
  ∀ (s : State) (slot src dst : Nat),
    (s.params.nplans ≤ slot ∨ s.params.nbuf ≤ src ∨ s.params.nbuf ≤ dst ∨ (s.plan slot).valid = false) →
      exec (.nttf slot src dst) s = .next { s with status := 0x51 } ∧
      exec (.ntti slot src dst) s = .next { s with status := 0x51 }

/-- R148(b): `NTTI` of the output of `NTTF`, and `NTTF` of the output of `NTTI`, give the input reduced modulo `p`. -/
def Obligations.TransformRoundTripReducesTheInput : Prop :=
  ∀ (s : State) (slot src mid dst : Nat),
    slot < s.params.nplans → src < s.params.nbuf → mid < s.params.nbuf → dst < s.params.nbuf →
    (s.plan slot).valid = true → PlanOk s slot →
    (∃ t u, exec (.nttf slot src mid) s = .next t ∧ exec (.ntti slot mid dst) t = .next u ∧
      ∀ i, i < s.planN slot → sint (u.seq dst i) = sint (s.seq src i) % s.planP slot) ∧
    ∃ t u, exec (.ntti slot src mid) s = .next t ∧ exec (.nttf slot mid dst) t = .next u ∧
      ∀ i, i < s.planN slot → sint (u.seq dst i) = sint (s.seq src i) % s.planP slot

/-- R148(c): the inverse transform of the pointwise product of two forward transforms is the cyclic convolution modulo
`p`. -/
def Obligations.PointwiseProductIsCyclicConvolution : Prop :=
  ∀ (s : State) (slot : Nat) (x y : List Int), PlanOk s slot → x.length = s.planN slot → y.length = s.planN slot →
    ∀ k, k < s.planN slot →
      (inverseTransform (s.itwTable slot) (s.planN slot) (s.planP slot) (s.planNinv slot)
        (List.zipWith (fun u v => modMul u v (s.planP slot))
          (forwardTransform (s.twTable slot) (s.planN slot) (s.planP slot) x)
          (forwardTransform (s.twTable slot) (s.planN slot) (s.planP slot) y))).getD k 0 =
        cyclicConvolution (s.planN slot) (fun i => x.getD i 0) (fun i => y.getD i 0) k % s.planP slot

/-! ### Reconstruction -/

/-- R161: with plans of one length and distinct primes in slots `0 .. cnt-1`, `CRT` writes to each entry of `CBUF` the one
number below the product of the primes that has the residues given, and changes nothing else. -/
def Obligations.CrtWritesTheUniqueReconstruction : Prop :=
  ∀ (s : State) (cnt src : Nat),
    1 ≤ cnt → cnt ≤ s.params.nplans → src + cnt ≤ s.params.nbuf →
    (∀ i, i < cnt → (s.plan i).valid = true ∧ PlanOk s i ∧ (s.plan i).n = (s.plan 0).n) →
    (∀ i j, i < j → j < cnt → s.planP i ≠ s.planP j) →
    ∃ t, exec (.crt cnt src) s = .next t ∧ t = { s with mem := t.mem, status := 0x01 } ∧
      (∀ pos, pos < s.planN 0 →
        (cbufValue t pos : Int) < ∏ i ∈ Finset.range cnt, s.planP i ∧
        (∀ i, i < cnt → (cbufValue t pos : Int) % s.planP i = sint (s.seq (src + i) pos) % s.planP i) ∧
        ∀ v : Int, 0 ≤ v → v < ∏ i ∈ Finset.range cnt, s.planP i →
          (∀ i, i < cnt → v % s.planP i = sint (s.seq (src + i) pos) % s.planP i) → v = cbufValue t pos) ∧
      ∀ a : Addr, ¬ (a.space = .cbuf ∧ a.hi < s.planN 0 ∧ a.lo < s.params.nplans) → t.word a = s.word a

/-- R161, R173: the errors of `CRT` in their order, each leaving everything but `STATUS` as it was. -/
def Obligations.CrtReportsErrorsInOrder : Prop :=
  ∀ (s : State) (cnt src : Nat),
    (cnt < 1 ∨ s.params.nplans < cnt ∨ s.params.nbuf < src + cnt →
      exec (.crt cnt src) s = .next { s with status := 0x51 }) ∧
    (1 ≤ cnt → cnt ≤ s.params.nplans → src + cnt ≤ s.params.nbuf →
      ((∃ i, i < cnt ∧ (s.plan i).valid = false) → exec (.crt cnt src) s = .next { s with status := 0x51 }) ∧
      ((∀ i, i < cnt → (s.plan i).valid = true) → (∃ i, i < cnt ∧ (s.plan i).n ≠ (s.plan 0).n) →
        exec (.crt cnt src) s = .next { s with status := 0x31 }) ∧
      ((∀ i, i < cnt → (s.plan i).valid = true ∧ PlanOk s i ∧ (s.plan i).n = (s.plan 0).n) →
        (∃ i j, i < j ∧ j < cnt ∧ s.planP i = s.planP j) →
          exec (.crt cnt src) s = .next { s with status := 0x11 }))

/-- R162: with one plan, `CRT` copies the residues, reduced modulo the prime, and writes 0 to the upper words. -/
def Obligations.CrtOfOnePlanCopiesTheResidues : Prop :=
  ∀ (s : State) (src : Nat), 1 ≤ s.params.nplans → src + 1 ≤ s.params.nbuf → (s.plan 0).valid = true → PlanOk s 0 →
    ∃ t, exec (.crt 1 src) s = .next t ∧ t.status = 0x01 ∧
      ∀ pos, pos < s.planN 0 → sint (t.cbuf pos 0) = sint (s.seq src pos) % s.planP 0 ∧
        ∀ k, 1 ≤ k → k < s.params.nplans → t.cbuf pos k = 0

/-! ### Host programs -/

/-- R78, `LDSEQ`: the values stand in the buffer, and no other word changes. -/
def Obligations.LdseqLoadsTheSequence : Prop :=
  ∀ (s : State) (b : Nat) (vs : List Int), b < s.params.nbuf → vs.length ≤ s.params.nmax →
    (∀ i, i < vs.length → (pseudoLdseq b vs s).seq b i = wrap64 (vs.getD i 0)) ∧
    ∀ a : Addr, ¬ (a.space = .seq ∧ a.hi = b ∧ a.lo < vs.length) → (pseudoLdseq b vs s).word a = s.word a

/-- R78, `PWMUL`: the destination buffer holds the pointwise products modulo the plan's prime, whichever buffers are the
same, and no other word changes. -/
def Obligations.PwmulWritesThePointwiseProducts : Prop :=
  ∀ (s : State) (d x y slot n : Nat),
    d < s.params.nbuf → x < s.params.nbuf → y < s.params.nbuf → slot < s.params.nplans → n ≤ s.params.nmax →
    1 ≤ s.planP slot → s.planP slot ≤ 2 ^ 62 - 1 →
    (∀ i, i < n → sint ((pseudoPwmul d x y slot n s).seq d i) =
      sint (s.seq x i) * sint (s.seq y i) % s.planP slot) ∧
    ∀ a : Addr, ¬ (a.space = .seq ∧ a.hi = d ∧ a.lo < n) → (pseudoPwmul d x y slot n s).word a = s.word a

/-! ### Invariants -/

/-- Every step keeps the memory's canonical form (the model's own, assumption 1), from every state that has it. -/
def Obligations.StepKeepsMemoryCanonical : Prop :=
  ∀ s t : State, Memory.wf s.mem = true → step s = .next t → Memory.wf t.mem = true

/-- R28: the plan invariant, from every state that has it, is kept by every step: only `TWID` writes a slot, and what it
writes is a plan. -/
def Obligations.StepKeepsThePlanInvariant : Prop :=
  ∀ s t : State, s.params.Wf → PlanInvariant s → step s = .next t → PlanInvariant t

/-- R22, R25: every step keeps `STATUS` legal and `RES` in range, and `DONE` is cleared by a reset only. -/
def Obligations.StepKeepsStatusAndResultLegal : Prop :=
  ∀ s t : State, legalStatus s.status → legalResult s.res → step s = .next t →
    legalStatus t.status ∧ legalResult t.res ∧
      ((∀ rest, s.hostIn ≠ .reset :: rest) → doneBit s.status = 1 → doneBit t.status = 1)

/-- R5, R27: no step changes the parameters of the block or the number of its slots. -/
def Obligations.StepKeepsParametersAndSlotCount : Prop :=
  ∀ s t : State, s.plans.length = s.params.nplans → step s = .next t →
    t.params = s.params ∧ t.plans.length = t.params.nplans

/-- R34, R190: the state after reset meets the invariants (its parameters and its empty memory are the model's choice,
assumptions 2 and 3). -/
def Obligations.ResetMeetsTheInvariants : Prop :=
  State.reset.params.Wf ∧ Memory.wf State.reset.mem = true ∧ PlanInvariant State.reset ∧
    legalStatus State.reset.status ∧ legalResult State.reset.res ∧
    State.reset.plans.length = State.reset.params.nplans
end

