-- ==== Sys2Proof/Laws/Memory.lean ====
section
/-! SUPPORT. Memory: what a read gives after each way of writing, and that each keeps the canonical form. -/

namespace Sys2Proof.Machine

theorem Memory.get?_put (m : Memory) (a b : Addr) (w : Word) :
    Memory.get? (Memory.put m a w) b = if b = a then some w else Memory.get? m b := by
  induction m with
  | nil => rfl
  | cons x m ih =>
    obtain ⟨c, v⟩ := x
    simp only [Memory.put]
    split_ifs with hac hlt hba <;> simp_all [Memory.get?]

@[simp] theorem Memory.get?_put_same (m : Memory) (a : Addr) (w : Word) :
    Memory.get? (Memory.put m a w) a = some w := by simp [Memory.get?_put]

theorem Memory.get?_put_other (m : Memory) {a b : Addr} (h : b ≠ a) (w : Word) :
    Memory.get? (Memory.put m a w) b = Memory.get? m b := by simp [Memory.get?_put, h]

/-- Writing a row: the words of the row, and everything else as before. -/
theorem Memory.get?_putRow (sp : Space) (hi : Nat) (a : Addr) :
    ∀ (ws : List Word) (m : Memory) (i : Nat),
      Memory.get? (Memory.putRow m sp hi i ws) a =
        if a.space = sp ∧ a.hi = hi ∧ i ≤ a.lo ∧ a.lo < i + ws.length then ws[a.lo - i]?
        else Memory.get? m a := by
  intro ws
  induction ws with
  | nil =>
    intro m i
    simp only [Memory.putRow, List.length_nil]
    rw [if_neg]
    omega
  | cons w ws ih =>
    intro m i
    simp only [Memory.putRow, ih, Memory.get?_put, List.length_cons]
    obtain ⟨sp', hi', lo⟩ := a
    by_cases h1 : sp' = sp ∧ hi' = hi
    · obtain ⟨rfl, rfl⟩ := h1
      simp only [true_and, Addr.mk.injEq]
      rcases Nat.lt_trichotomy lo i with h | h | h
      · rw [if_neg (by omega), if_neg (by omega), if_neg (by omega)]
      · subst h
        rw [if_neg (by omega), if_pos rfl, if_pos (by omega)]
        simp
      · have e : lo - i = (lo - (i + 1)) + 1 := by omega
        rw [if_neg (show ¬ lo = i by omega), e, List.getElem?_cons_succ]
        congr 1
        simp only [eq_iff_iff]
        omega
    · rw [if_neg (by tauto), if_neg (by simp only [Addr.mk.injEq]; tauto), if_neg (by tauto)]

/-- Writing rows: the words of the rows, and everything else as before. -/
theorem Memory.get?_putRows (sp : Space) (a : Addr) :
    ∀ (rs : List (List Word)) (m : Memory) (hi : Nat),
      Memory.get? (Memory.putRows m sp hi rs) a =
        if a.space = sp ∧ hi ≤ a.hi ∧ a.lo < (rs.getD (a.hi - hi) []).length then
          (rs.getD (a.hi - hi) [])[a.lo]?
        else Memory.get? m a := by
  intro rs
  induction rs with
  | nil => intro m hi; simp [Memory.putRows]
  | cons r rs ih =>
    intro m hi
    simp only [Memory.putRows, ih, Memory.get?_putRow]
    obtain ⟨sp', h', lo⟩ := a
    by_cases h1 : sp' = sp
    · subst h1
      simp only [true_and, Nat.zero_le, Nat.zero_add, Nat.sub_zero]
      rcases Nat.lt_trichotomy h' hi with h | h | h
      · rw [if_neg (by omega), if_neg (by omega), if_neg (by omega)]
      · subst h
        simp
      · have e : h' - hi = (h' - (hi + 1)) + 1 := by omega
        rw [if_neg (show ¬ (h' = hi ∧ lo < r.length) by omega), e]
        simp only [List.getD_cons_succ]
        congr 1
        simp only [eq_iff_iff]
        omega
    · rw [if_neg (by tauto), if_neg (by tauto), if_neg (by tauto)]

/-! ### The canonical form -/

theorem addrLt_total {a b : Addr} (h : a ≠ b) (hn : addrLt a b = false) : addrLt b a = true := by
  obtain ⟨sa, ha, la⟩ := a
  obtain ⟨sb, hb, lb⟩ := b
  cases sa <;> cases sb <;> simp [addrLt, Space.rank] at * <;> omega

/-- What `put` leaves at the front: the new address, or the old front. -/
theorem Memory.put_head (m : Memory) (a : Addr) (w : Word) :
    ∃ x rest, Memory.put m a w = x :: rest ∧ (x.1 = a ∨ ∃ y tail, m = y :: tail ∧ x.1 = y.1) := by
  cases m with
  | nil => exact ⟨_, _, rfl, .inl rfl⟩
  | cons y m =>
    obtain ⟨b, v⟩ := y
    simp only [Memory.put]
    split_ifs
    · exact ⟨_, _, rfl, .inl rfl⟩
    · exact ⟨_, _, rfl, .inl rfl⟩
    · exact ⟨_, _, rfl, .inr ⟨_, _, rfl, rfl⟩⟩

theorem Memory.wf_cons {x y : Addr × Word} {m : Memory} :
    Memory.wf (x :: y :: m) = true ↔ addrLt x.1 y.1 = true ∧ Memory.wf (y :: m) = true := by
  simp [Memory.wf]

theorem Memory.wf_tail {x : Addr × Word} {m : Memory} (h : Memory.wf (x :: m) = true) : Memory.wf m = true := by
  cases m with
  | nil => rfl
  | cons y m => exact (Memory.wf_cons.1 h).2

theorem Memory.put_wf (m : Memory) (a : Addr) (w : Word) (h : Memory.wf m = true) :
    Memory.wf (Memory.put m a w) = true := by
  induction m with
  | nil => rfl
  | cons y m ih =>
    obtain ⟨b, v⟩ := y
    simp only [Memory.put]
    split_ifs with hab hlt
    · subst hab
      cases m with
      | nil => rfl
      | cons z m => exact Memory.wf_cons.2 (Memory.wf_cons.1 h)
    · exact Memory.wf_cons.2 ⟨hlt, h⟩
    · have hba : addrLt b a = true := addrLt_total hab (by simpa using hlt)
      obtain ⟨x, rest, hx, hor⟩ := Memory.put_head m a w
      have ih' := ih (Memory.wf_tail h)
      rw [hx] at ih' ⊢
      refine Memory.wf_cons.2 ⟨?_, ih'⟩
      rcases hor with hxa | ⟨z, tail, rfl, hxz⟩
      · rw [hxa]; exact hba
      · rw [hxz]; exact (Memory.wf_cons.1 h).1

theorem Memory.putRow_wf (sp : Space) (hi : Nat) :
    ∀ (ws : List Word) (m : Memory) (i : Nat), Memory.wf m = true → Memory.wf (Memory.putRow m sp hi i ws) = true := by
  intro ws
  induction ws with
  | nil => intro m i h; exact h
  | cons w ws ih => intro m i h; exact ih _ _ (Memory.put_wf m _ w h)

theorem Memory.putRows_wf (sp : Space) :
    ∀ (rs : List (List Word)) (m : Memory) (hi : Nat),
      Memory.wf m = true → Memory.wf (Memory.putRows m sp hi rs) = true := by
  intro rs
  induction rs with
  | nil => intro m hi h; exact h
  | cons r rs ih => intro m hi h; exact ih _ _ (Memory.putRow_wf sp hi r m 0 h)

theorem State_reset_mem_wf : Memory.wf State.reset.mem = true := rfl

end Sys2Proof.Machine
end

