-- ==== Sys2Proof/Laws/State.lean ====
section
/-! SUPPORT. What each named update of the state does to each field, and to what is read of the words of the spaces, the
plan slots and the scalar operands. -/

namespace Sys2Proof.Machine

variable (s : State)

@[simp] theorem State.setOpa_opa (w : Word) : (s.setOpa w).opa = w := rfl
@[simp] theorem State.setOpa_opb (w : Word) : (s.setOpa w).opb = s.opb := rfl
@[simp] theorem State.setOpa_opm (w : Word) : (s.setOpa w).opm = s.opm := rfl
@[simp] theorem State.setOpa_res (w : Word) : (s.setOpa w).res = s.res := rfl
@[simp] theorem State.setOpa_status (w : Word) : (s.setOpa w).status = s.status := rfl
@[simp] theorem State.setOpa_plans (w : Word) : (s.setOpa w).plans = s.plans := rfl
@[simp] theorem State.setOpa_mem (w : Word) : (s.setOpa w).mem = s.mem := rfl
@[simp] theorem State.setOpa_params (w : Word) : (s.setOpa w).params = s.params := rfl
@[simp] theorem State.setOpa_epoch (w : Word) : (s.setOpa w).epoch = s.epoch := rfl
@[simp] theorem State.setOpa_hostIn (w : Word) : (s.setOpa w).hostIn = s.hostIn := rfl
@[simp] theorem State.setOpa_replies (w : Word) : (s.setOpa w).replies = s.replies := rfl
@[simp] theorem State.setOpa_word (w : Word) (x : Addr) : (s.setOpa w).word x = s.word x := rfl
@[simp] theorem State.setOpa_plan (w : Word) (k : Nat) : (s.setOpa w).plan k = s.plan k := rfl

@[simp] theorem State.setOpb_opa (w : Word) : (s.setOpb w).opa = s.opa := rfl
@[simp] theorem State.setOpb_opb (w : Word) : (s.setOpb w).opb = w := rfl
@[simp] theorem State.setOpb_opm (w : Word) : (s.setOpb w).opm = s.opm := rfl
@[simp] theorem State.setOpb_res (w : Word) : (s.setOpb w).res = s.res := rfl
@[simp] theorem State.setOpb_status (w : Word) : (s.setOpb w).status = s.status := rfl
@[simp] theorem State.setOpb_plans (w : Word) : (s.setOpb w).plans = s.plans := rfl
@[simp] theorem State.setOpb_mem (w : Word) : (s.setOpb w).mem = s.mem := rfl
@[simp] theorem State.setOpb_params (w : Word) : (s.setOpb w).params = s.params := rfl
@[simp] theorem State.setOpb_epoch (w : Word) : (s.setOpb w).epoch = s.epoch := rfl
@[simp] theorem State.setOpb_hostIn (w : Word) : (s.setOpb w).hostIn = s.hostIn := rfl
@[simp] theorem State.setOpb_replies (w : Word) : (s.setOpb w).replies = s.replies := rfl
@[simp] theorem State.setOpb_word (w : Word) (x : Addr) : (s.setOpb w).word x = s.word x := rfl
@[simp] theorem State.setOpb_plan (w : Word) (k : Nat) : (s.setOpb w).plan k = s.plan k := rfl

@[simp] theorem State.setOpm_opa (w : Word) : (s.setOpm w).opa = s.opa := rfl
@[simp] theorem State.setOpm_opb (w : Word) : (s.setOpm w).opb = s.opb := rfl
@[simp] theorem State.setOpm_opm (w : Word) : (s.setOpm w).opm = w := rfl
@[simp] theorem State.setOpm_res (w : Word) : (s.setOpm w).res = s.res := rfl
@[simp] theorem State.setOpm_status (w : Word) : (s.setOpm w).status = s.status := rfl
@[simp] theorem State.setOpm_plans (w : Word) : (s.setOpm w).plans = s.plans := rfl
@[simp] theorem State.setOpm_mem (w : Word) : (s.setOpm w).mem = s.mem := rfl
@[simp] theorem State.setOpm_params (w : Word) : (s.setOpm w).params = s.params := rfl
@[simp] theorem State.setOpm_epoch (w : Word) : (s.setOpm w).epoch = s.epoch := rfl
@[simp] theorem State.setOpm_hostIn (w : Word) : (s.setOpm w).hostIn = s.hostIn := rfl
@[simp] theorem State.setOpm_replies (w : Word) : (s.setOpm w).replies = s.replies := rfl
@[simp] theorem State.setOpm_word (w : Word) (x : Addr) : (s.setOpm w).word x = s.word x := rfl
@[simp] theorem State.setOpm_plan (w : Word) (k : Nat) : (s.setOpm w).plan k = s.plan k := rfl

@[simp] theorem State.setRes_opa (w : Word) : (s.setRes w).opa = s.opa := rfl
@[simp] theorem State.setRes_opb (w : Word) : (s.setRes w).opb = s.opb := rfl
@[simp] theorem State.setRes_opm (w : Word) : (s.setRes w).opm = s.opm := rfl
@[simp] theorem State.setRes_res (w : Word) : (s.setRes w).res = w := rfl
@[simp] theorem State.setRes_status (w : Word) : (s.setRes w).status = s.status := rfl
@[simp] theorem State.setRes_plans (w : Word) : (s.setRes w).plans = s.plans := rfl
@[simp] theorem State.setRes_mem (w : Word) : (s.setRes w).mem = s.mem := rfl
@[simp] theorem State.setRes_params (w : Word) : (s.setRes w).params = s.params := rfl
@[simp] theorem State.setRes_epoch (w : Word) : (s.setRes w).epoch = s.epoch := rfl
@[simp] theorem State.setRes_hostIn (w : Word) : (s.setRes w).hostIn = s.hostIn := rfl
@[simp] theorem State.setRes_replies (w : Word) : (s.setRes w).replies = s.replies := rfl
@[simp] theorem State.setRes_word (w : Word) (x : Addr) : (s.setRes w).word x = s.word x := rfl
@[simp] theorem State.setRes_plan (w : Word) (k : Nat) : (s.setRes w).plan k = s.plan k := rfl

@[simp] theorem State.setStatus_opa (w : Word) : (s.setStatus w).opa = s.opa := rfl
@[simp] theorem State.setStatus_opb (w : Word) : (s.setStatus w).opb = s.opb := rfl
@[simp] theorem State.setStatus_opm (w : Word) : (s.setStatus w).opm = s.opm := rfl
@[simp] theorem State.setStatus_res (w : Word) : (s.setStatus w).res = s.res := rfl
@[simp] theorem State.setStatus_status (w : Word) : (s.setStatus w).status = w := rfl
@[simp] theorem State.setStatus_plans (w : Word) : (s.setStatus w).plans = s.plans := rfl
@[simp] theorem State.setStatus_mem (w : Word) : (s.setStatus w).mem = s.mem := rfl
@[simp] theorem State.setStatus_params (w : Word) : (s.setStatus w).params = s.params := rfl
@[simp] theorem State.setStatus_epoch (w : Word) : (s.setStatus w).epoch = s.epoch := rfl
@[simp] theorem State.setStatus_hostIn (w : Word) : (s.setStatus w).hostIn = s.hostIn := rfl
@[simp] theorem State.setStatus_replies (w : Word) : (s.setStatus w).replies = s.replies := rfl
@[simp] theorem State.setStatus_word (w : Word) (x : Addr) : (s.setStatus w).word x = s.word x := rfl
@[simp] theorem State.setStatus_plan (w : Word) (k : Nat) : (s.setStatus w).plan k = s.plan k := rfl

@[simp] theorem State.setPlan_opa (i : Nat) (v : PlanSlot) : (s.setPlan i v).opa = s.opa := rfl
@[simp] theorem State.setPlan_opb (i : Nat) (v : PlanSlot) : (s.setPlan i v).opb = s.opb := rfl
@[simp] theorem State.setPlan_opm (i : Nat) (v : PlanSlot) : (s.setPlan i v).opm = s.opm := rfl
@[simp] theorem State.setPlan_res (i : Nat) (v : PlanSlot) : (s.setPlan i v).res = s.res := rfl
@[simp] theorem State.setPlan_status (i : Nat) (v : PlanSlot) : (s.setPlan i v).status = s.status := rfl
@[simp] theorem State.setPlan_plans (i : Nat) (v : PlanSlot) : (s.setPlan i v).plans = slotSet s.plans i v := rfl
@[simp] theorem State.setPlan_mem (i : Nat) (v : PlanSlot) : (s.setPlan i v).mem = s.mem := rfl
@[simp] theorem State.setPlan_params (i : Nat) (v : PlanSlot) : (s.setPlan i v).params = s.params := rfl
@[simp] theorem State.setPlan_epoch (i : Nat) (v : PlanSlot) : (s.setPlan i v).epoch = s.epoch := rfl
@[simp] theorem State.setPlan_hostIn (i : Nat) (v : PlanSlot) : (s.setPlan i v).hostIn = s.hostIn := rfl
@[simp] theorem State.setPlan_replies (i : Nat) (v : PlanSlot) : (s.setPlan i v).replies = s.replies := rfl
@[simp] theorem State.setPlan_word (i : Nat) (v : PlanSlot) (x : Addr) : (s.setPlan i v).word x = s.word x := rfl

@[simp] theorem State.setMem_opa (m : Memory) : (s.setMem m).opa = s.opa := rfl
@[simp] theorem State.setMem_opb (m : Memory) : (s.setMem m).opb = s.opb := rfl
@[simp] theorem State.setMem_opm (m : Memory) : (s.setMem m).opm = s.opm := rfl
@[simp] theorem State.setMem_res (m : Memory) : (s.setMem m).res = s.res := rfl
@[simp] theorem State.setMem_status (m : Memory) : (s.setMem m).status = s.status := rfl
@[simp] theorem State.setMem_plans (m : Memory) : (s.setMem m).plans = s.plans := rfl
@[simp] theorem State.setMem_mem (m : Memory) : (s.setMem m).mem = m := rfl
@[simp] theorem State.setMem_params (m : Memory) : (s.setMem m).params = s.params := rfl
@[simp] theorem State.setMem_epoch (m : Memory) : (s.setMem m).epoch = s.epoch := rfl
@[simp] theorem State.setMem_hostIn (m : Memory) : (s.setMem m).hostIn = s.hostIn := rfl
@[simp] theorem State.setMem_replies (m : Memory) : (s.setMem m).replies = s.replies := rfl
@[simp] theorem State.setMem_plan (m : Memory) (k : Nat) : (s.setMem m).plan k = s.plan k := rfl

@[simp] theorem State.setHostIn_opa (q : List HostStep) : (s.setHostIn q).opa = s.opa := rfl
@[simp] theorem State.setHostIn_opb (q : List HostStep) : (s.setHostIn q).opb = s.opb := rfl
@[simp] theorem State.setHostIn_opm (q : List HostStep) : (s.setHostIn q).opm = s.opm := rfl
@[simp] theorem State.setHostIn_res (q : List HostStep) : (s.setHostIn q).res = s.res := rfl
@[simp] theorem State.setHostIn_status (q : List HostStep) : (s.setHostIn q).status = s.status := rfl
@[simp] theorem State.setHostIn_plans (q : List HostStep) : (s.setHostIn q).plans = s.plans := rfl
@[simp] theorem State.setHostIn_mem (q : List HostStep) : (s.setHostIn q).mem = s.mem := rfl
@[simp] theorem State.setHostIn_params (q : List HostStep) : (s.setHostIn q).params = s.params := rfl
@[simp] theorem State.setHostIn_epoch (q : List HostStep) : (s.setHostIn q).epoch = s.epoch := rfl
@[simp] theorem State.setHostIn_hostIn (q : List HostStep) : (s.setHostIn q).hostIn = q := rfl
@[simp] theorem State.setHostIn_replies (q : List HostStep) : (s.setHostIn q).replies = s.replies := rfl
@[simp] theorem State.setHostIn_word (q : List HostStep) (x : Addr) : (s.setHostIn q).word x = s.word x := rfl
@[simp] theorem State.setHostIn_plan (q : List HostStep) (k : Nat) : (s.setHostIn q).plan k = s.plan k := rfl

@[simp] theorem State.pushReply_opa (w : Word) : (s.pushReply w).opa = s.opa := rfl
@[simp] theorem State.pushReply_opb (w : Word) : (s.pushReply w).opb = s.opb := rfl
@[simp] theorem State.pushReply_opm (w : Word) : (s.pushReply w).opm = s.opm := rfl
@[simp] theorem State.pushReply_res (w : Word) : (s.pushReply w).res = s.res := rfl
@[simp] theorem State.pushReply_status (w : Word) : (s.pushReply w).status = s.status := rfl
@[simp] theorem State.pushReply_plans (w : Word) : (s.pushReply w).plans = s.plans := rfl
@[simp] theorem State.pushReply_mem (w : Word) : (s.pushReply w).mem = s.mem := rfl
@[simp] theorem State.pushReply_params (w : Word) : (s.pushReply w).params = s.params := rfl
@[simp] theorem State.pushReply_epoch (w : Word) : (s.pushReply w).epoch = s.epoch := rfl
@[simp] theorem State.pushReply_hostIn (w : Word) : (s.pushReply w).hostIn = s.hostIn := rfl
@[simp] theorem State.pushReply_replies (w : Word) : (s.pushReply w).replies = w :: s.replies := rfl
@[simp] theorem State.pushReply_word (w : Word) (x : Addr) : (s.pushReply w).word x = s.word x := rfl
@[simp] theorem State.pushReply_plan (w : Word) (k : Nat) : (s.pushReply w).plan k = s.plan k := rfl

@[simp] theorem State.setMem_word (m : Memory) (x : Addr) :
    (s.setMem m).word x = (Memory.get? m x).getD (Config.unspecified s.epoch x) := rfl

theorem State.tw_eq_word (i j : Nat) : s.tw i j = s.word ⟨.tw, i, j⟩ := rfl
theorem State.itw_eq_word (i j : Nat) : s.itw i j = s.word ⟨.itw, i, j⟩ := rfl
theorem State.seq_eq_word (i j : Nat) : s.seq i j = s.word ⟨.seq, i, j⟩ := rfl
theorem State.cbuf_eq_word (i j : Nat) : s.cbuf i j = s.word ⟨.cbuf, i, j⟩ := rfl

end Sys2Proof.Machine
end

