-- ==== Sys2Proof/Laws/Word.lean ====
section
/-! SUPPORT. What `wrap64` keeps of an integer (00_scope.md R7). -/

namespace Sys2Proof

theorem sint_wrap64 {v : Int} (low : -(2 ^ 63) ≤ v) (high : v < 2 ^ 63) : sint (wrap64 v) = v := by
  unfold sint wrap64
  rw [BitVec.toInt_ofInt, Int.bmod_eq_of_le] <;> norm_num <;> omega

theorem uint_wrap64 {v : Int} (low : 0 ≤ v) (high : v < 2 ^ 64) : (uint (wrap64 v) : Int) = v := by
  unfold uint wrap64
  rw [BitVec.toNat_ofInt]
  norm_num
  omega

theorem sint_range (w : Word) : -(2 ^ 63) ≤ sint w ∧ sint w < 2 ^ 63 := by
  unfold sint
  have := BitVec.le_toInt w
  have := BitVec.toInt_lt (x := w)
  norm_num at *
  omega

theorem sint_inj {v w : Word} (h : sint v = sint w) : v = w := BitVec.eq_of_toInt_eq h

theorem wrap64_sint (w : Word) : wrap64 (sint w) = w :=
  sint_inj (sint_wrap64 (sint_range w).1 (sint_range w).2)

end Sys2Proof
end

