-- ==== Sys2Proof/Laws/Ops.lean ====
section
/-! SUPPORT. What each shared operation can do: plan slots, the end of a command, the three kinds of store. -/

namespace Sys2Proof.Machine

/-! ### Plan slots -/

theorem slotAt_slotSet (l : List PlanSlot) (i k : Nat) (v : PlanSlot) :
    slotAt (slotSet l i v) k = if k = i then v else slotAt l k := by
  unfold slotAt
  induction l generalizing i k with
  | nil =>
    induction i generalizing k with
    | zero => cases k <;> simp [slotSet]
    | succ i ih => cases k <;> simp_all [slotSet]
  | cons x l ih => cases i <;> cases k <;> simp_all [slotSet]

theorem slotSet_length (l : List PlanSlot) (i : Nat) (v : PlanSlot) :
    (slotSet l i v).length = max l.length (i + 1) := by
  induction l generalizing i with
  | nil =>
    induction i with
    | zero => rfl
    | succ i ih => simp_all [slotSet]
  | cons x l ih => cases i <;> simp_all [slotSet]

theorem State.setPlan_plan (s : State) (i k : Nat) (v : PlanSlot) :
    (s.setPlan i v).plan k = if k = i then v else s.plan k := slotAt_slotSet _ _ _ _

/-! ### The end of a command -/

/-- Raising an error writes `STATUS` and nothing else (R172). -/
theorem raise_eq (e : Err) (s : State) : raise e s = { s with status := statusWord e.code } := rfl

@[simp] theorem finish_error (s : State) (e : Err) : finish s (.error e) = raise e s := rfl
@[simp] theorem finish_ok (s t : State) : finish s (.ok t) = t.setStatus (statusWord 0) := rfl

theorem Err.code_range (e : Err) : 1 ≤ e.code ∧ e.code ≤ 7 := by cases e <;> decide

/-- The fields of what a command leaves in `STATUS` (R25). -/
theorem statusWord_fields {c : Nat} (h : c < 16) : doneBit (statusWord c) = 1 ∧ errField (statusWord c) = c := by
  unfold doneBit errField statusWord bits uint
  rw [BitVec.toNat_ofNat]
  omega

/-- Everything `finish` can do: the command raised an error, or its writes take effect. -/
theorem finish_cases (s : State) (r : Except Err State) :
    (∃ e, r = .error e ∧ finish s r = { s with status := statusWord e.code }) ∨
      (∃ t, r = .ok t ∧ finish s r = { t with status := statusWord 0 }) := by
  cases r with
  | error e => exact .inl ⟨e, rfl, rfl⟩
  | ok t => exact .inr ⟨t, rfl, rfl⟩

/-! ### Stores -/

/-- The words after a store into a sequence buffer. -/
theorem storeSeq_word (s : State) (b : Nat) (ws : List Word) (a : Addr) :
    (storeSeq s b ws).word a =
      if a.space = .seq ∧ a.hi = b ∧ a.lo < ws.length then ws.getD a.lo 0 else s.word a := by
  unfold storeSeq
  rw [State.setMem_word, Memory.get?_putRow]
  simp only [Nat.zero_le, true_and, Nat.zero_add, Nat.sub_zero]
  split_ifs with h
  · obtain ⟨-, -, hl⟩ := h
    simp [List.getElem?_eq_getElem hl]
  · rfl

/-- A store into a sequence buffer changes memory only. -/
theorem storeSeq_frame (s : State) (b : Nat) (ws : List Word) :
    storeSeq s b ws = { s with mem := (storeSeq s b ws).mem } := rfl

theorem storeSeq_wf (s : State) (b : Nat) (ws : List Word) (h : Memory.wf s.mem = true) :
    Memory.wf (storeSeq s b ws).mem = true := Memory.putRow_wf _ _ _ _ _ h

/-- The words after a plan is stored: the two tables of the slot, and everything else as before. -/
theorem storePlan_word (s : State) (slot : Nat) (n : Int) (d : PlanData) (a : Addr) :
    (storePlan s slot n d).word a =
      if a.space = .tw ∧ a.hi = slot ∧ a.lo < d.t.length then wrap64 (d.t.getD a.lo 0)
      else if a.space = .itw ∧ a.hi = slot ∧ a.lo < d.it.length then wrap64 (d.it.getD a.lo 0)
      else s.word a := by
  unfold storePlan
  rw [State.setMem_word, Memory.get?_putRow, Memory.get?_putRow]
  simp only [Nat.zero_le, true_and, Nat.zero_add, Nat.sub_zero, List.length_map, State.setPlan_epoch]
  by_cases h1 : a.space = .itw ∧ a.hi = slot ∧ a.lo < d.it.length
  · obtain ⟨hs, hh, hl⟩ := h1
    rw [if_pos ⟨hs, hh, hl⟩, if_neg (by rw [hs]; simp), if_pos ⟨hs, hh, hl⟩]
    simp [List.getElem?_eq_getElem hl]
  · rw [if_neg h1]
    by_cases h2 : a.space = .tw ∧ a.hi = slot ∧ a.lo < d.t.length
    · obtain ⟨hs, hh, hl⟩ := h2
      rw [if_pos ⟨hs, hh, hl⟩, if_pos ⟨hs, hh, hl⟩]
      simp [List.getElem?_eq_getElem hl]
    · rw [if_neg h2, if_neg h2, if_neg h1]
      rfl

theorem storePlan_plan (s : State) (slot : Nat) (n : Int) (d : PlanData) (k : Nat) :
    (storePlan s slot n d).plan k =
      if k = slot then { valid := true, n := wrap64 n, p := wrap64 d.p, ninv := wrap64 d.ninv } else s.plan k :=
  slotAt_slotSet _ _ _ _

/-- Storing a plan changes the slots and memory only. -/
theorem storePlan_frame (s : State) (slot : Nat) (n : Int) (d : PlanData) :
    storePlan s slot n d = { s with plans := (storePlan s slot n d).plans, mem := (storePlan s slot n d).mem } := rfl

theorem storePlan_wf (s : State) (slot : Nat) (n : Int) (d : PlanData) (h : Memory.wf s.mem = true) :
    Memory.wf (storePlan s slot n d).mem = true :=
  Memory.putRow_wf _ _ _ _ _ (Memory.putRow_wf _ _ _ _ _ h)

@[simp] theorem limbs_length (count : Nat) (v : Int) : (limbs count v).length = count := by simp [limbs]

/-- The words after a reconstruction: the entries of `CBUF` below `N`, and everything else as before. -/
theorem storeCrt_word (s : State) (cnt src : Nat) (coeffs : List (Int × Int)) (a : Addr) :
    (storeCrt s cnt src coeffs).word a =
      if a.space = .cbuf ∧ a.hi < s.planN 0 ∧ a.lo < s.params.nplans then
        wrap64 (crtValue s cnt src coeffs a.hi / (2 ^ (64 * a.lo) : Nat))
      else s.word a := by
  unfold storeCrt
  rw [State.setMem_word, Memory.get?_putRows]
  simp only [Nat.zero_le, true_and, Nat.sub_zero]
  by_cases hh : a.hi < s.planN 0
  · have e : (List.map (fun pos => limbs s.params.nplans (crtValue s cnt src coeffs pos))
        (List.range (s.planN 0))).getD a.hi [] = limbs s.params.nplans (crtValue s cnt src coeffs a.hi) := by
      simp [List.getD_eq_getElem?_getD, hh]
    rw [e, limbs_length]
    by_cases hl : a.space = .cbuf ∧ a.lo < s.params.nplans
    · rw [if_pos hl, if_pos ⟨hl.1, hh, hl.2⟩]
      simp [limbs, hl.2]
    · rw [if_neg hl, if_neg (by tauto)]
      rfl
  · rw [if_neg (by simp [List.getD_eq_getElem?_getD, hh]), if_neg (by tauto)]
    rfl

/-- A reconstruction changes memory only. -/
theorem storeCrt_frame (s : State) (cnt src : Nat) (coeffs : List (Int × Int)) :
    storeCrt s cnt src coeffs = { s with mem := (storeCrt s cnt src coeffs).mem } := rfl

theorem storeCrt_wf (s : State) (cnt src : Nat) (coeffs : List (Int × Int)) (h : Memory.wf s.mem = true) :
    Memory.wf (storeCrt s cnt src coeffs).mem = true := Memory.putRows_wf _ _ _ _ h

/-! ### Lengths -/

@[simp] theorem powersFrom_length (w p : Int) (k : Nat) (t : Int) : (powersFrom w p k t).length = k := by
  induction k generalizing t with
  | zero => rfl
  | succ k ih => simp [powersFrom, ih]

@[simp] theorem bitReverse_length {α : Type} (z : α) (n : Nat) (x : List α) : (bitReverse z n x).length = n := by
  simp [bitReverse]

@[simp] theorem stage_length (t : Nat → Int) (n : Nat) (p : Int) (m : Nat) (x : List Int) :
    (stage t n p m x).length = n := by simp [stage]

theorem butterflies_length (t : Nat → Int) (n : Nat) (p : Int) (x : List Int) (h : x.length = n) :
    (butterflies t n p x).length = n := by
  unfold butterflies
  generalize n.log2 = e
  induction e with
  | zero => simpa using h
  | succ e ih => rw [List.range_succ, List.foldl_append]; simp

@[simp] theorem forwardTransform_length (t : Nat → Int) (n : Nat) (p : Int) (x : List Int) :
    (forwardTransform t n p x).length = n := by simp [forwardTransform, butterflies_length]

@[simp] theorem inverseTransform_length (t : Nat → Int) (n : Nat) (p ninv : Int) (x : List Int) :
    (inverseTransform t n p ninv x).length = n := by simp [inverseTransform, butterflies_length]

@[simp] theorem State.seqWords_length (s : State) (b n : Nat) : (s.seqWords b n).length = n := by
  simp [State.seqWords]

@[simp] theorem State.seqInts_length (s : State) (b n : Nat) : (s.seqInts b n).length = n := by
  simp [State.seqInts]

end Sys2Proof.Machine
end

