-- ==== Sys2Proof/Laws/Commands.lean ====
section
/-! SUPPORT. What a command and a step can do, said once: every command ends through `finish`, and its writes are of
the one kind its rule names; every step is idle, a command, an illegal word, a plain host access or a reset. -/

namespace Sys2Proof.Machine

/-- The writes of a successful command, `t` being the state with them done (R110, R111, R121, R126, R142, R145, R146,
R161). -/
def CommandWrites (i : Instr) (s t : State) : Prop :=
  match i with
  | .modmul => ∃ v, t = s.setRes (wrap64 v)
  | .modpow => ∃ v, t = s.setRes (wrap64 v)
  | .proot => ∃ v, t = s.setRes (wrap64 v)
  | .twid slot => slot < s.params.nplans ∧ ∃ d, planInit s.params s.a s.m = .ok d ∧ t = storePlan s slot s.a d
  | .bitrev dst => dst < s.params.nbuf ∧ ∃ ws, ws.length = s.a.toNat ∧ t = storeSeq s dst ws
  | .nttf slot _ dst => dst < s.params.nbuf ∧ ∃ ws, ws.length = s.planN slot ∧ t = storeSeq s dst ws
  | .ntti slot _ dst => dst < s.params.nbuf ∧ ∃ ws, ws.length = s.planN slot ∧ t = storeSeq s dst ws
  | .crt cnt src => ∃ coeffs, t = storeCrt s cnt src coeffs

theorem scalarCommand_writes (s : State) (value : Int → Except Err Int) :
    ∃ r, scalarCommand s value = finish s r ∧ ∀ t, r = .ok t → ∃ v, t = s.setRes (wrap64 v) := by
  refine ⟨_, rfl, ?_⟩
  intro t h
  split at h
  · split at h
    · cases h
    · exact ⟨_, by injection h with h; exact h.symm⟩
  · cases h

theorem transformCommand_writes (slot src dst : Nat) (s : State) (result : List Int → List Int)
    (hlen : (result (s.seqInts src (s.planN slot))).length = s.planN slot) :
    ∃ r, transformCommand slot src dst s result = finish s r ∧
      ∀ t, r = .ok t → dst < s.params.nbuf ∧ ∃ ws, ws.length = s.planN slot ∧ t = storeSeq s dst ws := by
  refine ⟨_, rfl, ?_⟩
  intro t h
  split at h
  · rename_i hr
    split at h
    · exact ⟨hr.2.2, (result (s.seqInts src (s.planN slot))).map wrap64, by simpa using hlen,
        by injection h with h; exact h.symm⟩
    · cases h
  · cases h

/-- Everything a command can do. -/
theorem exec_writes (i : Instr) (s : State) :
    ∃ r, exec i s = .next (finish s r) ∧ ∀ t, r = .ok t → CommandWrites i s t := by
  cases i with
  | modmul =>
    obtain ⟨r, h, hr⟩ := scalarCommand_writes s (fun m => .ok (modMul s.a s.b m))
    exact ⟨r, congrArg _ h, hr⟩
  | modpow =>
    obtain ⟨r, h, hr⟩ := scalarCommand_writes s (fun m => modPow s.a s.b m)
    exact ⟨r, congrArg _ h, hr⟩
  | proot =>
    obtain ⟨r, h, hr⟩ := scalarCommand_writes s (fun m => primitiveRoot s.params.primeLimit m.toNat)
    exact ⟨r, congrArg _ h, hr⟩
  | twid slot =>
    refine ⟨_, rfl, ?_⟩
    intro t h
    split at h
    · rename_i hs
      split at h
      · cases h
      · rename_i d hd
        exact ⟨hs, d, hd, by injection h with h; exact h.symm⟩
    · cases h
  | bitrev dst =>
    refine ⟨_, rfl, ?_⟩
    intro t h
    split at h
    · rename_i hd
      split at h
      · exact ⟨hd, bitReverse 0 s.a.toNat (s.seqWords dst s.a.toNat), by simp,
          by injection h with h; exact h.symm⟩
      · cases h
    · cases h
  | nttf slot src dst =>
    obtain ⟨r, h, hr⟩ := transformCommand_writes slot src dst s
      (forwardTransform (s.twTable slot) (s.planN slot) (s.planP slot)) (by simp)
    exact ⟨r, congrArg _ h, hr⟩
  | ntti slot src dst =>
    obtain ⟨r, h, hr⟩ := transformCommand_writes slot src dst s
      (inverseTransform (s.itwTable slot) (s.planN slot) (s.planP slot) (s.planNinv slot)) (by simp)
    exact ⟨r, congrArg _ h, hr⟩
  | crt cnt src =>
    refine ⟨_, rfl, ?_⟩
    intro t h
    split at h
    · split at h
      · split at h
        · split at h
          · cases h
          · rename_i coeffs _
            exact ⟨coeffs, by injection h with h; exact h.symm⟩
        · cases h
      · cases h
    · cases h

/-- A step in which a command word is written to `CMD` and is some command runs that command (R57, R76). -/
theorem step_of_command {s : State} {rest : List HostStep} {w : Word} {i : Instr}
    (hq : s.hostIn = .write (.reg 0) w :: rest) (hd : decode w = .ok i) : step s = exec i (s.setHostIn rest) := by
  simp [step, nextHostStep, hq, hostStep, execute, hd]

/-- Everything a step can do. -/
theorem step_cases (s : State) :
    (s.hostIn = [] ∧ step s = .next s) ∨
      (∃ w rest i, s.hostIn = .write (.reg 0) w :: rest ∧ decode w = .ok i ∧ step s = exec i (s.setHostIn rest)) ∨
      (∃ w rest e, s.hostIn = .write (.reg 0) w :: rest ∧ decode w = .error e ∧
        step s = .next (raise .illegalCommand (s.setHostIn rest))) ∨
      (∃ l w rest, s.hostIn = .write l w :: rest ∧ l ≠ .reg 0 ∧ step s = .next (hostWrite (s.setHostIn rest) l w)) ∨
      (∃ l rest, s.hostIn = .read l :: rest ∧
        step s = .next ((s.setHostIn rest).pushReply (hostRead (s.setHostIn rest) l))) ∨
      (∃ rest, s.hostIn = .reset :: rest ∧ step s = .next (platformReset (s.setHostIn rest))) := by
  unfold step nextHostStep
  cases hq : s.hostIn with
  | nil => exact .inl ⟨rfl, rfl⟩
  | cons h rest =>
    cases h with
    | read l => exact .inr (.inr (.inr (.inr (.inl ⟨l, rest, rfl, rfl⟩))))
    | reset => exact .inr (.inr (.inr (.inr (.inr ⟨rest, rfl, rfl⟩))))
    | write l w =>
      by_cases hl : l = .reg 0
      · subst hl
        cases hd : decode w with
        | ok i => exact .inr (.inl ⟨w, rest, i, rfl, hd, by simp [hostStep, execute, hd]⟩)
        | error e => exact .inr (.inr (.inl ⟨w, rest, e, rfl, hd, by simp [hostStep, execute, hd]⟩))
      · exact .inr (.inr (.inr (.inl ⟨l, w, rest, rfl, hl, by simp [hostStep, hl]⟩)))

/-- Everything a plain host write can do (R53, R55). -/
theorem hostWrite_cases (s : State) (l : Loc) (w : Word) :
    (l = .reg 2 ∧ hostWrite s l w = s.setOpa w) ∨ (l = .reg 3 ∧ hostWrite s l w = s.setOpb w) ∨
      (l = .reg 4 ∧ hostWrite s l w = s.setOpm w) ∨
      (∃ a, l = .word a ∧ a.space = .seq ∧ addrInRange s.params a = true ∧
        hostWrite s l w = s.setMem (Memory.put s.mem a w)) ∨
      hostWrite s l w = s := by
  unfold hostWrite
  split
  · exact .inl ⟨rfl, rfl⟩
  · exact .inr (.inl ⟨rfl, rfl⟩)
  · exact .inr (.inr (.inl ⟨rfl, rfl⟩))
  · rename_i a
    split
    · rename_i h
      exact .inr (.inr (.inr (.inl ⟨a, rfl, h.1, h.2, rfl⟩)))
    · exact .inr (.inr (.inr (.inr rfl)))
  · exact .inr (.inr (.inr (.inr rfl)))

end Sys2Proof.Machine
end

