-- ==== Sys2Proof/Laws/PerInstr.lean ====
section
/-! SUPPORT. The family `EncodesInItsRow` (30_encoding.md R72), one lemma per command: the command's word has the
row's `match` under the row's `mask`, and its field `OPC` is the row's opcode. -/

namespace Sys2Proof.Laws.EncodesInItsRow

/-- The word of a well-formed command matches the command's row, whose low byte is the command's opcode. -/
def Statement (i : Instr) : Prop :=
  i.wf = true → encode i &&& i.row.mask = i.row.pattern ∧ bits (encode i) 7 0 = bits i.row.pattern 7 0

/-- A word of format `C` is the concatenation of its fields (R71). -/
theorem formatC_append {opc plan src dst : Nat} (ho : opc < 256) (hp : plan < 256) (hs : src < 256) (hd : dst < 256) :
    formatC opc plan src dst = 0#32 ++ BitVec.ofNat 8 dst ++ BitVec.ofNat 8 src ++ BitVec.ofNat 8 plan ++
      BitVec.ofNat 8 opc := by
  apply BitVec.eq_of_toNat_eq
  simp only [formatC, BitVec.toNat_append, BitVec.toNat_ofNat]
  rw [← Nat.shiftLeft_add_eq_or_of_lt (by omega), ← Nat.shiftLeft_add_eq_or_of_lt (by omega),
    ← Nat.shiftLeft_add_eq_or_of_lt (by omega), ← Nat.shiftLeft_add_eq_or_of_lt (by omega)]
  simp only [Nat.shiftLeft_eq]
  omega

/-- The field `OPC` of a word of format `C`. -/
theorem formatC_opc {opc : Nat} (ho : opc < 256) (plan src dst : Nat) :
    bits (formatC opc plan src dst) 7 0 = opc := by
  simp only [bits, uint, formatC, BitVec.toNat_ofNat]
  omega

/-- Masking a word of format `C` field by field. -/
theorem formatC_and {opc plan src dst : Nat} (ho : opc < 256) (hp : plan < 256) (hs : src < 256) (hd : dst < 256)
    (md ms mp : BitVec 8) :
    formatC opc plan src dst &&& (BitVec.allOnes 32 ++ md ++ ms ++ mp ++ BitVec.allOnes 8) =
      0#32 ++ (BitVec.ofNat 8 dst &&& md) ++ (BitVec.ofNat 8 src &&& ms) ++ (BitVec.ofNat 8 plan &&& mp) ++
        BitVec.ofNat 8 opc := by
  rw [formatC_append ho hp hs hd, BitVec.and_append, BitVec.and_append, BitVec.and_append, BitVec.and_append]
  simp only [BitVec.and_allOnes]

theorem modmul : Statement .modmul := fun _ => by decide
theorem modpow : Statement .modpow := fun _ => by decide
theorem proot : Statement .proot := fun _ => by decide

theorem twid (slot : Nat) : Statement (.twid slot) := fun h => by
  have hs : slot < 256 := by simpa [Instr.wf, fieldOk] using h
  refine ⟨?_, (formatC_opc (by omega) _ _ _).trans (by simp only [Instr.row]; decide)⟩
  refine (formatC_and (by omega) hs (by omega) (by omega) (BitVec.allOnes 8) (BitVec.allOnes 8) 0#8).trans ?_
  rw [BitVec.and_zero]
  rfl

theorem bitrev (dst : Nat) : Statement (.bitrev dst) := fun h => by
  have hd : dst < 256 := by simpa [Instr.wf, fieldOk] using h
  refine ⟨?_, (formatC_opc (by omega) _ _ _).trans (by simp only [Instr.row]; decide)⟩
  refine (formatC_and (by omega) (by omega) (by omega) hd 0#8 (BitVec.allOnes 8) (BitVec.allOnes 8)).trans ?_
  rw [BitVec.and_zero]
  rfl

theorem nttf (slot src dst : Nat) : Statement (.nttf slot src dst) := fun h => by
  have hf : (slot < 256 ∧ src < 256) ∧ dst < 256 := by simpa [Instr.wf, fieldOk] using h
  obtain ⟨⟨hs, ha⟩, hd⟩ := hf
  refine ⟨?_, (formatC_opc (by omega) _ _ _).trans (by simp only [Instr.row]; decide)⟩
  refine (formatC_and (by omega) hs ha hd 0#8 0#8 0#8).trans ?_
  simp only [BitVec.and_zero]
  rfl

theorem ntti (slot src dst : Nat) : Statement (.ntti slot src dst) := fun h => by
  have hf : (slot < 256 ∧ src < 256) ∧ dst < 256 := by simpa [Instr.wf, fieldOk] using h
  obtain ⟨⟨hs, ha⟩, hd⟩ := hf
  refine ⟨?_, (formatC_opc (by omega) _ _ _).trans (by simp only [Instr.row]; decide)⟩
  refine (formatC_and (by omega) hs ha hd 0#8 0#8 0#8).trans ?_
  simp only [BitVec.and_zero]
  rfl

theorem crt (cnt src : Nat) : Statement (.crt cnt src) := fun h => by
  have hf : cnt < 256 ∧ src < 256 := by simpa [Instr.wf, fieldOk] using h
  refine ⟨?_, (formatC_opc (by omega) _ _ _).trans (by simp only [Instr.row]; decide)⟩
  refine (formatC_and (by omega) hf.1 hf.2 (by omega) (BitVec.allOnes 8) 0#8 0#8).trans ?_
  simp only [BitVec.and_zero]
  rfl

end Sys2Proof.Laws.EncodesInItsRow
end

