-- ==== Sys2Proof/Tests/Slice0.lean ====
section
/-! SUPPORT. Tests of the model's own: ill-formed commands, the words of 30_encoding.md and 95_test_vectors.md section 2.9,
vectors of 95_test_vectors.md (the section is named at each), and, for each statement with hypotheses, a state that meets
them (`witness_<statement>`). -/

open Sys2Proof Sys2Proof.Machine

namespace Sys2Proof.Tests

-- One theorem at a time: elaborated side by side, so many kernel evaluations take more threads than the build has.
set_option Elab.async false

/-! ### Helpers -/

/-- The state after a command. -/
def after (i : Instr) (s : State) : State :=
  match exec i s with
  | .next t => t
  | .fault _ => s
  | .refused _ => s

/-- A fresh block with the scalar operands written. -/
def withOps (a b m : Int) : State := { State.reset with opa := wrap64 a, opb := wrap64 b, opm := wrap64 m }

/-- A buffer loaded from index 0. -/
def load (b : Nat) (vs : List Int) (s : State) : State := storeSeq s b (vs.map wrap64)

/-- The first `n` elements of a buffer. -/
def elems (s : State) (b n : Nat) : List Int := s.seqInts b n

/-- The plan `N = 4`, `p = 5` of 43_plan_init.md R129. -/
def plan5 : PlanData := { p := 5, ninv := 4, t := [1, 2, 4, 3], it := [1, 3, 4, 2] }

/-- The plan `N = 4`, `p = 13` of R129. -/
def plan13 : PlanData := { p := 13, ninv := 10, t := [1, 8, 12, 5], it := [1, 5, 12, 8] }

/-- The plan `N = 4`, `p = 17` of R129. -/
def plan17 : PlanData := { p := 17, ninv := 13, t := [1, 13, 16, 4], it := [1, 4, 16, 13] }

/-- The plan `N = 2`, `p = 3` of R129. -/
def plan3 : PlanData := { p := 3, ninv := 2, t := [1, 2], it := [1, 2] }

/-- Slot 0 with `N = 4`, `p = 5`. -/
def onePlan : State := storePlan State.reset 0 4 plan5

/-- Slots 0 and 1 with `N = 4` and the primes 13 and 17. -/
def twoPlans : State := storePlan (storePlan State.reset 0 4 plan13) 1 4 plan17

/-- Slots 0 and 1 with the same plan. -/
def equalPlans : State := storePlan (storePlan State.reset 0 4 plan13) 1 4 plan13

/-- Slots of different lengths. -/
def unequalPlans : State := storePlan (storePlan State.reset 0 4 plan13) 1 2 plan3

/-! ### Well-formedness: an ill-formed command for each check -/

theorem test_twid_slot_too_wide : (Instr.twid 256).wf = false := by decide
theorem test_bitrev_dst_too_wide : (Instr.bitrev 256).wf = false := by decide
theorem test_nttf_fields_too_wide :
    (Instr.nttf 256 0 0).wf = false ∧ (Instr.nttf 0 256 0).wf = false ∧ (Instr.nttf 0 0 256).wf = false := by decide
theorem test_ntti_fields_too_wide :
    (Instr.ntti 256 0 0).wf = false ∧ (Instr.ntti 0 256 0).wf = false ∧ (Instr.ntti 0 0 256).wf = false := by decide
theorem test_crt_fields_too_wide : (Instr.crt 256 0).wf = false ∧ (Instr.crt 0 256).wf = false := by decide
theorem test_widest_fields_are_well_formed :
    (Instr.ntti 255 255 255).wf = true ∧ (Instr.crt 255 255).wf = true := by decide

/-! ### Decoding: a word of each row written out from R71 and R72, and the illegal words of section 2.9 -/

theorem test_decode_modmul : decode 0x0000000000000001 = .ok .modmul := by decide
theorem test_decode_modpow : decode 0x0000000000000002 = .ok .modpow := by decide
theorem test_decode_proot : decode 0x0000000000000003 = .ok .proot := by decide
/-- `TWID p1`: `OPC` 00000100, `PLAN` 00000001. -/
theorem test_decode_twid : decode 0b0000000100000100 = .ok (.twid 1) := by decide
/-- `BITREV b255`. -/
theorem test_decode_bitrev : decode 0x00000000FF000005 = .ok (.bitrev 255) := by decide
/-- `NTTF b1, b0, p0`. -/
theorem test_decode_nttf : decode 0x0000000001000006 = .ok (.nttf 0 0 1) := by decide
/-- `NTTI b3, b2, p1`: `DST` 00000011, `SRC` 00000010, `PLAN` 00000001, `OPC` 00000111. -/
theorem test_decode_ntti : decode 0b00000011000000100000000100000111 = .ok (.ntti 1 2 3) := by decide
/-- `CRT b4, 2`. -/
theorem test_decode_crt : decode 0x0000000000040208 = .ok (.crt 2 4) := by decide
theorem test_decode_zero_is_illegal : decode 0 = .error .unassignedOpcode := by decide
theorem test_decode_unassigned : decode 0x09 = .error .unassignedOpcode ∧ decode 0xFF = .error .unassignedOpcode := by
  decide
theorem test_decode_reserved_bits :
    decode 0x0000000100000001 = .error .reservedBits ∧ decode 0x8000000000000006 = .error .reservedBits := by decide
theorem test_decode_unused_fields :
    decode 0x0103 = .error .unusedField ∧ decode 0x010004 = .error .unusedField ∧
      decode 0x02000105 = .error .unusedField ∧ decode 0x01000008 = .error .unusedField := by decide
theorem test_decodeTableWord : decodeTableWord 64 0x03020107 = some (.ntti 1 2 3) := by decide

/-! ### Steps -/

theorem test_step_runs_the_queued_command :
    step ((withOps 7 8 5).withFetchWord 64 0x01) = .next { withOps 7 8 5 with res := 1, status := 1 } := by rfl
theorem test_illegal_command_sets_only_status :
    step (State.reset.withFetchWord 64 0x0101) = .next { State.reset with status := 0x71 } := by rfl
theorem test_write_to_a_read_only_location_is_ignored :
    step { onePlan with hostIn := [.write (.plan 0 2) 9] } = .next onePlan := by rfl

/-! ### Commands: vectors of 95_test_vectors.md -/

/-- 2.2: the most negative operands, `(-2)^2` modulo `2^62 - 1`. -/
theorem test_modmul_most_negative :
    (after .modmul (withOps (-9223372036854775808) (-9223372036854775808) 4611686018427387903)).res = 4 := by
  decide +kernel
/-- 2.2: a modulus above `MOD_MAX`. -/
theorem test_modmul_modulus_too_large :
    after .modmul (withOps 7 8 4611686018427387904) =
      { withOps 7 8 4611686018427387904 with status := 0x41 } := by decide +kernel
/-- 2.3: exponent `-2^63`. -/
theorem test_modpow_most_negative_exponent :
    (after .modpow (withOps 3 (-9223372036854775808) 7)).res = 4 := by decide +kernel
/-- 2.3: no inverse. -/
theorem test_modpow_not_invertible :
    after .modpow (withOps 6 (-3) 9) = { withOps 6 (-3) 9 with status := 0x11 } := by decide +kernel
/-- 2.4: a composite operand. -/
theorem test_proot_composite : (after .proot (withOps 0 0 15)).res = 3 := by decide +kernel
/-- 2.4: the empty scan. -/
theorem test_proot_of_one : (after .proot (withOps 0 0 1)).status = 0x21 := by decide +kernel
/-- 2.5: the automatic plan of length 8. -/
theorem test_twid_automatic :
    ((after (.twid 0) (withOps 8 0 0)).plan 0 = { valid := true, n := 8, p := 17, ninv := 15 }) ∧
      (List.range 8).map ((after (.twid 0) (withOps 8 0 0)).itwTable 0) = [1, 2, 4, 8, 16, 15, 13, 9] := by
  decide +kernel
/-- 2.5: the length is tested before the selection. -/
theorem test_twid_length_first : (after (.twid 0) (withOps 3 0 (-5))).status = 0x31 := by decide +kernel
/-- 2.6: a length of 4 in a buffer of 8. -/
theorem test_bitrev_prefix :
    elems (after (.bitrev 2) (load 2 [10, 11, 12, 13, 14, 15, 16, 17] (withOps 4 0 0))) 2 8 =
      [10, 12, 11, 13, 14, 15, 16, 17] := by decide +kernel
/-- 2.6: the buffer is tested before the length. -/
theorem test_bitrev_buffer_first : (after (.bitrev 9) (withOps 6 0 0)).status = 0x51 := by decide +kernel
/-- 2.7: inputs outside `[0, p)`. -/
theorem test_nttf_reduces : elems (after (.nttf 0 0 1) (load 0 [-1, 7, 0, 12] onePlan)) 1 4 = [3, 4, 0, 4] := by
  decide +kernel
/-- 2.7: in place. -/
theorem test_nttf_in_place : elems (after (.nttf 0 0 0) (load 0 [1, 2, 3, 4] onePlan)) 0 4 = [0, 4, 3, 2] := by
  decide +kernel
/-- 2.7. -/
theorem test_ntti : elems (after (.ntti 0 1 2) (load 1 [0, 4, 3, 2] onePlan)) 2 4 = [1, 2, 3, 4] := by decide +kernel
/-- 2.7: a slot that holds no plan. -/
theorem test_ntti_without_plan : (after (.ntti 1 0 1) onePlan).status = 0x51 := by decide +kernel
/-- 2.8: a negative residue and a large one. -/
theorem test_crt_reduces :
    (List.range 4).map
      (fun pos => (uint ((after (.crt 2 4) (load 5 [16, 20, 0, 0] (load 4 [-1, 14, 0, 0] twoPlans))).cbuf pos 0),
        uint ((after (.crt 2 4) (load 5 [16, 20, 0, 0] (load 4 [-1, 14, 0, 0] twoPlans))).cbuf pos 1))) =
      [(220, 0), (105, 0), (0, 0), (0, 0)] := by decide +kernel
/-- 2.8: equal primes. -/
theorem test_crt_equal_primes : (after (.crt 2 0) equalPlans).status = 0x11 := by decide +kernel

/-! ### Kernel functions: section 2.1 -/

theorem test_egcd : egcd 240 46 = (2, -9, 47) ∧ egcd 12 18 = (6, -1, 1) := by decide +kernel
theorem test_factorUUP :
    factorUUP 330000000000000 30030 = [2, 3, 5, 7, 11, 13] ∧ factorUUP 330000000000000 49 = [7] ∧
      factorUUP 330000000000000 35 = [5, 7] ∧ factorUUP 330000000000000 1 = [] := by decide +kernel
theorem test_bitRevIndex : (List.range 8).map (fun i => bitRevIndex i 3) = [0, 4, 2, 6, 1, 5, 3, 7] := by decide

/-! ### Witnesses: for each statement with hypotheses, states that meet them, one per clause -/

theorem witness_DecodeOfEncodeIsTheCommand : (Instr.nttf 255 0 255).wf = true ∧ (Instr.crt 0 255).wf = true := by decide

theorem witness_EncodeOfDecodeIsTheWord : decode 0xFFFFFF06 = .ok (.nttf 255 255 255) := by decide

/-- A queue with a legal word, one with an illegal word. -/
theorem witness_IllegalWordsRaiseIllegalCommand :
    ({ State.reset with hostIn := [.write (.reg 0) 0x0900] } : State).hostIn = .write (.reg 0) 0x0900 :: [] ∧
      decode 0x0900 = .error .unassignedOpcode ∧ decode 0x01FF0004 = .error .unusedField := by decide

theorem witness_StepRunsTheDecodedCommand :
    ({ onePlan with hostIn := [.write (.reg 0) 0x0208, .reset] } : State).hostIn =
        .write (.reg 0) 0x0208 :: [.reset] ∧ decode 0x0208 = .ok (.crt 2 0) := by decide

theorem witness_QueuedCommandRunsNext : (Instr.twid 255).wf = true := by decide

theorem witness_EveryStepAnswersANextState : State.reset.hostIn = [] := by decide

/-- A writable location at the edge of its range, a read-only one and an absent one. -/
theorem witness_HostWriteIsReadBack :
    (∀ l ∈ [Loc.reg 4, Loc.reg 1, Loc.reg 6, Loc.word ⟨.seq, 7, 7⟩, Loc.word ⟨.seq, 8, 0⟩, Loc.word ⟨.tw, 0, 0⟩],
      l ≠ .reg 0 ∧ ({ State.reset with hostIn := [.write l 5] } : State).hostIn = .write l 5 :: []) ∧
    7 < State.reset.params.nbuf ∧ 7 < State.reset.params.nmax := by decide

/-- Each kind of location, at the edge of its range and past it. -/
theorem witness_HostReadReturnsTheWord :
    (∀ l ∈ [Loc.reg 0, .reg 5, .reg 6, .plan 1 3, .plan 2 0, .plan 0 4, .word ⟨.tw, 1, 7⟩, .word ⟨.itw, 2, 0⟩,
        .word ⟨.seq, 7, 7⟩, .word ⟨.seq, 0, 8⟩, .word ⟨.cbuf, 7, 1⟩, .word ⟨.cbuf, 0, 2⟩],
      ({ onePlan with hostIn := [.read l] } : State).hostIn = .read l :: []) ∧
    onePlan.params.nplans = 2 ∧ onePlan.params.nmax = 8 ∧ onePlan.params.nbuf = 8 := by decide

theorem witness_PlatformResetLeavesNoPlan :
    ({ onePlan with hostIn := [.reset] } : State).hostIn = .reset :: [] ∧ (onePlan.plan 0).valid = true := by decide

theorem witness_EveryCommandWritesStatus :
    ({ onePlan with hostIn := [.write (.reg 0) 0] } : State).hostIn = .write (.reg 0) 0 :: [] ∧
      ({ onePlan with hostIn := [.write (.reg 0) 1] } : State).hostIn = .write (.reg 0) 1 :: [] := by decide

theorem witness_FailedCommandChangesOnlyStatus :
    ∃ t, exec (.bitrev 8) (withOps 4 0 0) = .next t ∧ errField t.status ≠ 0 := ⟨_, rfl, by decide +kernel⟩

theorem witness_CommandsLeaveOperandsAlone : ∃ t, exec .modpow (withOps 3 (-1) 7) = .next t := ⟨_, rfl⟩

/-- A command that changes `RES`, and one that succeeds. -/
theorem witness_ResultRegisterWrittenOnlyOnSuccess :
    ∃ t, exec .modmul (withOps 7 8 5) = .next t ∧ t.res ≠ (withOps 7 8 5).res ∧ errField t.status = 0 :=
  ⟨_, rfl, by decide +kernel, by decide +kernel⟩

/-- A command that changes a slot, and a host write that is no command. -/
theorem witness_SlotsWrittenOnlyByTwid :
    (∃ t, exec (.twid 1) (withOps 2 0 3) = .next t ∧ t.plan 1 ≠ (withOps 2 0 3).plan 1) ∧
      ∃ t, step { onePlan with hostIn := [.write (.word ⟨.tw, 0, 0⟩) 7] } = .next t :=
  ⟨⟨_, rfl, by decide +kernel⟩, ⟨_, rfl⟩⟩

/-- A transform that changes a word. -/
theorem witness_CommandsStoreOnlyIntoTheirOwnWords :
    ∃ t, exec (.nttf 0 0 0) (load 0 [1, 2, 3, 4] onePlan) = .next t ∧
      t.word ⟨.seq, 0, 0⟩ ≠ (load 0 [1, 2, 3, 4] onePlan).word ⟨.seq, 0, 0⟩ := ⟨_, rfl, by decide +kernel⟩

theorem witness_GcdAndEgcdFollowTheDocument : 0 < 240 := by decide

/-- Both clauses, at the least modulus and at a larger one. -/
theorem witness_ModInvIsTheUniqueInverse :
    ((1 : Int) ≤ 1 ∧ Int.gcd (5 % 1) 1 = 1) ∧ ((1 : Int) ≤ 9 ∧ Int.gcd (-6 % 9) 9 ≠ 1) := by decide +kernel

theorem witness_DoubleAndAddIsExactAndFits :
    (1 : Int) ≤ 4611686018427387903 ∧ (4611686018427387903 : Int) ≤ 2 ^ 62 - 1 ∧
      4611686018427387902 ∈ doublingSums 5 0 2305843009213693951 5 4611686018427387903 := by decide +kernel

/-- The ends of both ranges. -/
theorem witness_FactorUUPListsTheDistinctPrimes :
    2 ^ 31 ≤ 2147483648 ∧ 1 ≤ 4611686018427387903 ∧ 4611686018427387903 ≤ 2 ^ 62 - 1 ∧ 1 ≤ 1 := by decide +kernel

theorem witness_TotientIsEulers : 2 ^ 31 ≤ 2147483648 ∧ 1 ≤ 1 ∧ 1 ≤ 2 ^ 62 - 1 := by decide +kernel

theorem witness_IsPow2AndLog2AreExact : (1 : Int) = 2 ^ 0 ∧ (8 : Int) = 2 ^ 3 := by decide +kernel

/-- A length with a prime and, under a small limit, one without. -/
theorem witness_SelectModulusIsTheLeastPrime :
    2 ≤ 8 ∧ selectModulus 330000000000000 8 = .ok 17 ∧ selectModulus 17 8 = .error .noModulus := by decide +kernel

/-- The clauses at the ends of the modulus range, and just outside it. -/
theorem witness_ModmulWritesTheProduct :
    (1 ≤ sint (withOps 7 8 1).opm ∧ sint (withOps 7 8 1).opm ≤ 2 ^ 62 - 1) ∧
      sint (withOps 7 8 4611686018427387903).opm = 2 ^ 62 - 1 ∧ sint (withOps 7 8 0).opm < 1 ∧
      2 ^ 62 - 1 < sint (withOps 7 8 4611686018427387904).opm := by decide +kernel

/-- Exponent 0; exponent -1 with and without an inverse; a modulus out of range. -/
theorem witness_ModpowWritesThePower :
    0 ≤ sint (withOps 0 0 1).opb ∧ sint (withOps 0 (-1) 1).opb < 0 ∧
      Int.gcd (sint (withOps 0 (-1) 1).opa % sint (withOps 0 (-1) 1).opm) (sint (withOps 0 (-1) 1).opm) = 1 ∧
      Int.gcd (sint (withOps 2 (-1) 4).opa % sint (withOps 2 (-1) 4).opm) (sint (withOps 2 (-1) 4).opm) ≠ 1 ∧
      sint (withOps 2 3 0).opm < 1 := by decide +kernel

theorem witness_InverseTimesOperandIsOne :
    1 ≤ sint (withOps 10 0 17).opm ∧ sint (withOps 10 0 17).opm ≤ 2 ^ 62 - 1 ∧
      Int.gcd (sint (withOps 10 0 17).opa % sint (withOps 10 0 17).opm) (sint (withOps 10 0 17).opm) = 1 := by
  decide +kernel

/-- The least operand of each clause. -/
theorem witness_ProotWritesTheLeastPassingCandidate :
    (withOps 0 0 2).params.Wf ∧ sint (withOps 0 0 2).opm = (2 : Nat) ∧ sint (withOps 0 0 1).opm = 1 ∧
      sint (withOps 0 0 0).opm < 1 := by decide +kernel

theorem witness_ProotOfAPrimeIsItsLeastPrimitiveRoot :
    (withOps 0 0 3).params.Wf ∧ Nat.Prime 3 ∧ sint (withOps 0 0 3).opm = (3 : Nat) :=
  ⟨by decide +kernel, Nat.prime_three, by decide +kernel⟩

/-- An explicit modulus, and the automatic choice at the largest length. -/
theorem witness_TwidBuildsThePlan :
    (withOps 2 0 3).params.Wf ∧ 0 < (withOps 2 0 3).params.nplans ∧ sint (withOps 2 0 3).opa = 2 ^ 1 ∧
      isPrime (withOps 2 0 3).params.primeLimit 3 = true ∧ (3 : Int) % 2 ^ 1 = 1 ∧ sint (withOps 2 0 3).opm = 3 ∧
      1 < (withOps 8 0 0).params.nplans ∧ sint (withOps 8 0 0).opa = 2 ^ 3 ∧
      sint (withOps 8 0 0).opa ≤ (withOps 8 0 0).params.nmax ∧
      isPrime (withOps 8 0 0).params.primeLimit 17 = true ∧ (17 : Int) % 2 ^ 3 = 1 ∧ sint (withOps 8 0 0).opm = 0 ∧
      isPrime (withOps 8 0 0).params.primeLimit (2 ^ 3 * 1 + 1) = false := by decide +kernel

/-- A block whose `PRIME_LIMIT` leaves no candidate for `N = 2`. -/
def noCandidate : State := { withOps 2 0 0 with params := { Config.vectors with primeLimit := 3 } }

/-- Each clause; for `NoModulus`, a state in which no candidate passes. -/
theorem witness_TwidReportsErrorsInOrder :
    ((withOps 4 0 0).params.nplans ≤ 2 ∧ sint (withOps 1 0 0).opa < 2 ∧
      ((withOps 16 0 0).params.nmax : Int) < sint (withOps 16 0 0).opa ∧ sint (withOps 4 0 (-1)).opm < 0 ∧
      (sint (withOps 4 0 7).opm - 1) % 2 ^ 2 ≠ 0 ∧
      isPrime (withOps 4 0 9).params.primeLimit (sint (withOps 4 0 9).opm) = false ∧
      0 < noCandidate.params.nplans ∧ sint noCandidate.opa = 2 ^ 1 ∧ sint noCandidate.opa ≤ noCandidate.params.nmax ∧
      sint noCandidate.opm = 0) ∧
    ∀ k : Nat, 1 ≤ k → isPrime noCandidate.params.primeLimit (2 ^ 1 * k + 1) = true →
      (2 ^ 62 - 1 : Int) < 2 ^ 1 * k + 1 := by
  refine ⟨by decide +kernel, fun k hk h => ?_⟩
  have h3 : noCandidate.params.primeLimit = 3 := rfl
  simp only [h3, isPrime, Bool.and_eq_true, decide_eq_true_eq] at h
  omega

/-- A length that is no power of two, for `TwidReportsErrorsInOrder` and `BitrevPermutesTheBuffer`. -/
theorem witness_length_that_is_no_power_of_two : ¬ ∃ e : Nat, sint (withOps 6 0 0).opa = 2 ^ e := by
  rintro ⟨e, he⟩
  have h6 : sint (withOps 6 0 0).opa = 6 := by decide +kernel
  rw [h6] at he
  rcases e with _ | _ | _ | e
  · omega
  · omega
  · omega
  · have : (2 : Int) ^ (e + 3) = 8 * 2 ^ e := by ring
    omega

/-- What R28 says of a slot that holds a plan of length `2^e`, as one finite question. -/
abbrev PlanFacts (s : State) (slot e : Nat) : Prop :=
  (sint (s.plan slot).n = 2 ^ e ∧ 2 ≤ sint (s.plan slot).n ∧ sint (s.plan slot).n ≤ s.params.nmax) ∧
  (isPrime s.params.primeLimit (s.planP slot) = true ∧ s.planP slot ≤ modMax ∧
    s.planP slot % sint (s.plan slot).n = 1) ∧
  (sint (s.tw slot 1) ^ s.planN slot % s.planP slot = 1 ∧
    (∀ m : Nat, m < s.planN slot → 0 < m → sint (s.tw slot 1) ^ m % s.planP slot ≠ 1) ∧
    sint (s.tw slot 1) * sint (s.itw slot 1) % s.planP slot = 1) ∧
  (∀ i : Nat, i < s.planN slot → sint (s.tw slot i) = sint (s.tw slot 1) ^ i % s.planP slot ∧
    sint (s.itw slot i) = sint (s.itw slot 1) ^ i % s.planP slot) ∧
  s.planNinv slot * sint (s.plan slot).n % s.planP slot = 1 ∧ 1 ≤ s.planNinv slot ∧ s.planNinv slot < s.planP slot

theorem planOk_of_facts {s : State} {slot e : Nat} (h : PlanFacts s slot e) : PlanOk s slot := by
  obtain ⟨⟨ha, ha2, hamax⟩, ⟨hb, hbmax, hbform⟩, ⟨hc, hcorder, hcinv⟩, hd, he, helow, hehigh⟩ := h
  exact
    { lengthPow2 := ⟨e, ha⟩, lengthLow := ha2, lengthHigh := hamax
      prime := hb, modulusHigh := hbmax, modulusForm := hbform
      rootPower := hc, rootOrder := hcorder, inverseRoot := hcinv
      table := fun i hi => (hd i hi).1, inverseTable := fun i hi => (hd i hi).2
      lengthInverse := he, lengthInverseLow := helow, lengthInverseHigh := hehigh }

theorem onePlan_ok : PlanOk onePlan 0 := planOk_of_facts (e := 2) (by decide +kernel)

theorem twoPlans_ok (slot : Nat) (h : slot < 2) : PlanOk twoPlans slot :=
  planOk_of_facts (e := 2) ((by decide +kernel : ∀ k, k < 2 → PlanFacts twoPlans k 2) slot h)

theorem equalPlans_ok (slot : Nat) (h : slot < 2) : PlanOk equalPlans slot :=
  planOk_of_facts (e := 2) ((by decide +kernel : ∀ k, k < 2 → PlanFacts equalPlans k 2) slot h)

theorem witness_PlanTablesAreEachOthersMirror : PlanOk onePlan 0 ∧ 3 < onePlan.planN 0 :=
  ⟨onePlan_ok, by decide +kernel⟩

theorem witness_TwidAgainGivesTheSamePlan :
    ∃ t, exec (.twid 0) (withOps 4 0 0) = .next t ∧ errField t.status = 0 := ⟨_, rfl, by decide +kernel⟩

/-- The least width, and the largest index of a larger one. -/
theorem witness_BitRevIndexReversesTheBits : 0 < 2 ^ 0 ∧ 7 < 2 ^ 3 := by decide

theorem witness_SwapLoopIsThePermutation :
    ([5] : List Word).length = 2 ^ 0 ∧ ([10, 11, 12, 13] : List Word).length = 2 ^ 2 := by decide

/-- The least and the largest length, the first absent buffer, a length above `NMAX`. -/
theorem witness_BitrevPermutesTheBuffer :
    7 < (withOps 8 0 0).params.nbuf ∧ sint (withOps 1 0 0).opa = 2 ^ 0 ∧ sint (withOps 8 0 0).opa = 2 ^ 3 ∧
      sint (withOps 8 0 0).opa ≤ (withOps 8 0 0).params.nmax ∧ (withOps 8 0 0).params.nbuf ≤ 8 ∧
      sint (withOps 0 0 0).opa < 1 ∧ ((withOps 16 0 0).params.nmax : Int) < sint (withOps 16 0 0).opa := by
  decide +kernel

theorem witness_BitrevTwiceRestoresTheBuffer :
    7 < (withOps 8 0 0).params.nbuf ∧ sint (withOps 8 0 0).opa = 2 ^ 3 ∧
      sint (withOps 8 0 0).opa ≤ (withOps 8 0 0).params.nmax := by decide +kernel

theorem witness_ButterflyLoopsAreTheStage : ([1, 2, 3, 4] : List Int).length = 2 ^ 2 ∧ 1 ≤ 2 ∧ 2 ≤ 2 := by decide

/-- In place, and into the last buffer. -/
theorem witness_NttfWritesTheReferenceTransform :
    0 < onePlan.params.nplans ∧ 0 < onePlan.params.nbuf ∧ 7 < onePlan.params.nbuf ∧ (onePlan.plan 0).valid = true ∧
      PlanOk onePlan 0 :=
  ⟨by decide, by decide, by decide, by decide +kernel, onePlan_ok⟩

theorem witness_NttiWritesTheReferenceInverse :
    0 < onePlan.params.nplans ∧ 7 < onePlan.params.nbuf ∧ (onePlan.plan 0).valid = true ∧ PlanOk onePlan 0 :=
  ⟨by decide, by decide, by decide +kernel, onePlan_ok⟩

/-- The first absent slot, the first absent buffer, a slot without a plan. -/
theorem witness_TransformsRejectBadSelections :
    onePlan.params.nplans ≤ 2 ∧ onePlan.params.nbuf ≤ 8 ∧ (onePlan.plan 1).valid = false := by decide +kernel

theorem witness_TransformRoundTripReducesTheInput :
    1 < twoPlans.params.nplans ∧ 7 < twoPlans.params.nbuf ∧ (twoPlans.plan 1).valid = true ∧ PlanOk twoPlans 1 :=
  ⟨by decide, by decide, by decide +kernel, twoPlans_ok 1 (by decide)⟩

theorem witness_PointwiseProductIsCyclicConvolution :
    PlanOk onePlan 0 ∧ ([1, 2, 3, 4] : List Int).length = onePlan.planN 0 ∧ 3 < onePlan.planN 0 :=
  ⟨onePlan_ok, by decide +kernel, by decide +kernel⟩

/-- Two plans in the last two buffers. -/
theorem witness_CrtWritesTheUniqueReconstruction :
    2 ≤ twoPlans.params.nplans ∧ 6 + 2 ≤ twoPlans.params.nbuf ∧
      (∀ i, i < 2 → (twoPlans.plan i).valid = true ∧ PlanOk twoPlans i ∧ (twoPlans.plan i).n = (twoPlans.plan 0).n) ∧
      (∀ i j, i < j → j < 2 → twoPlans.planP i ≠ twoPlans.planP j) ∧ 3 < twoPlans.planN 0 := by
  refine ⟨by decide, by decide, fun i hi => ⟨?_, twoPlans_ok i hi, ?_⟩, fun i j hij hj => ?_, by decide +kernel⟩
  · interval_cases i <;> decide +kernel
  · interval_cases i <;> decide +kernel
  · obtain rfl : j = 1 := by omega
    obtain rfl : i = 0 := by omega
    decide +kernel

/-- No plan, too many, buffers past the last; a slot without a plan; unequal lengths; equal primes. -/
theorem witness_CrtReportsErrorsInOrder :
    twoPlans.params.nplans < 3 ∧ twoPlans.params.nbuf < 7 + 2 ∧ (onePlan.plan 1).valid = false ∧
      ((unequalPlans.plan 0).valid = true ∧ (unequalPlans.plan 1).valid = true ∧
        (unequalPlans.plan 1).n ≠ (unequalPlans.plan 0).n) ∧
      (∀ i, i < 2 → (equalPlans.plan i).valid = true ∧ PlanOk equalPlans i ∧
        (equalPlans.plan i).n = (equalPlans.plan 0).n) ∧ equalPlans.planP 0 = equalPlans.planP 1 := by
  refine ⟨by decide, by decide, by decide +kernel, by decide +kernel,
    fun i hi => ⟨?_, equalPlans_ok i hi, ?_⟩, by decide +kernel⟩
  · interval_cases i <;> decide +kernel
  · interval_cases i <;> decide +kernel

theorem witness_CrtOfOnePlanCopiesTheResidues :
    1 ≤ onePlan.params.nplans ∧ 7 + 1 ≤ onePlan.params.nbuf ∧ (onePlan.plan 0).valid = true ∧ PlanOk onePlan 0 :=
  ⟨by decide, by decide, by decide +kernel, onePlan_ok⟩

theorem witness_LdseqLoadsTheSequence :
    7 < State.reset.params.nbuf ∧ ([1, 2, 3, 4, 5, 6, 7, 8] : List Int).length ≤ State.reset.params.nmax := by decide

theorem witness_PwmulWritesThePointwiseProducts :
    7 < onePlan.params.nbuf ∧ 0 < onePlan.params.nplans ∧ 8 ≤ onePlan.params.nmax ∧ 1 ≤ onePlan.planP 0 ∧
      onePlan.planP 0 ≤ 2 ^ 62 - 1 := by decide +kernel

theorem witness_StepKeepsMemoryCanonical :
    Memory.wf onePlan.mem = true ∧ ∃ t, step (onePlan.withFetchWord 64 0x01000006) = .next t :=
  ⟨by decide +kernel, _, rfl⟩

theorem witness_StepKeepsThePlanInvariant :
    onePlan.params.Wf ∧ PlanInvariant onePlan ∧ (onePlan.plan 0).valid = true ∧ ∃ t, step onePlan = .next t := by
  refine ⟨by decide +kernel, fun slot h hv => ?_, by decide +kernel, _, rfl⟩
  have h2 : slot < 2 := h
  interval_cases slot
  · exact onePlan_ok
  · exact absurd hv (by decide +kernel)

/-- The reset values, and those left by a command, with `DONE` set. -/
theorem witness_StepKeepsStatusAndResultLegal :
    (legalStatus State.reset.status ∧ legalResult State.reset.res) ∧
      (legalStatus (after .modmul (withOps 7 8 5)).status ∧ legalResult (after .modmul (withOps 7 8 5)).res ∧
        doneBit (after .modmul (withOps 7 8 5)).status = 1) ∧
      ∃ t, step (State.reset.withFetchWord 64 1) = .next t :=
  ⟨⟨.inl rfl, by decide +kernel, by decide +kernel⟩,
    ⟨.inr ⟨0, by decide, by decide +kernel⟩, ⟨by decide +kernel, by decide +kernel⟩, by decide +kernel⟩, _, rfl⟩

theorem witness_StepKeepsParametersAndSlotCount :
    twoPlans.plans.length = twoPlans.params.nplans ∧ ∃ t, step twoPlans = .next t := ⟨by decide +kernel, _, rfl⟩

end Sys2Proof.Tests
end

section
/-! PROOFS. O55: no step changes the parameters of the block or the number of its slots (R5, R27). Only `TWID` and the
platform's reset write the list of slots: `TWID` replaces a slot below `NPLANS`, reset lays out `NPLANS` new ones. -/

namespace Sys2Proof.Machine

/-- From `s` to `t` the parameters stay, and if `s` holds `NPLANS` slots, so does `t`. -/
def KeepsShape (s t : State) : Prop :=
  t.params = s.params ∧ (s.plans.length = s.params.nplans → t.plans.length = t.params.nplans)

theorem KeepsShape.of_params_plans_eq {s t : State} (hparams : t.params = s.params) (hplans : t.plans = s.plans) :
    KeepsShape s t :=
  ⟨hparams, fun h => by rw [hplans, hparams, h]⟩

/-- Replacing a slot that the list holds leaves the length of the list. -/
theorem slotSet_length_of_lt {l : List PlanSlot} {i : Nat} (h : i < l.length) (v : PlanSlot) :
    (slotSet l i v).length = l.length := by
  rw [slotSet_length]; omega

theorem storePlan_keepsShape {s : State} {slot : Nat} (hslot : slot < s.params.nplans) (n : Int) (d : PlanData) :
    KeepsShape s (storePlan s slot n d) :=
  ⟨rfl, fun h => (slotSet_length_of_lt (h ▸ hslot) _).trans h⟩

theorem CommandWrites.keepsShape {i : Instr} {s t : State} (h : CommandWrites i s t) : KeepsShape s t := by
  cases i with
  | modmul | modpow | proot => obtain ⟨v, rfl⟩ := h; exact .of_params_plans_eq rfl rfl
  | twid slot => obtain ⟨hslot, d, -, rfl⟩ := h; exact storePlan_keepsShape hslot _ d
  | bitrev dst => obtain ⟨-, ws, -, rfl⟩ := h; exact .of_params_plans_eq rfl rfl
  | nttf slot src dst | ntti slot src dst => obtain ⟨-, ws, -, rfl⟩ := h; exact .of_params_plans_eq rfl rfl
  | crt cnt src => obtain ⟨coeffs, rfl⟩ := h; exact .of_params_plans_eq rfl rfl

theorem exec_keepsShape {i : Instr} {s t : State} (h : exec i s = .next t) : KeepsShape s t := by
  obtain ⟨r, hexec, hwrites⟩ := exec_writes i s
  obtain rfl : finish s r = t := Host.Outcome.next.inj (hexec.symm.trans h)
  cases r with
  | error e => exact .of_params_plans_eq rfl rfl
  | ok u => exact (hwrites u rfl).keepsShape

theorem hostWrite_keepsShape (s : State) (l : Loc) (w : Word) : KeepsShape s (hostWrite s l w) := by
  obtain ⟨-, h⟩ | ⟨-, h⟩ | ⟨-, h⟩ | ⟨a, -, -, -, h⟩ | h := hostWrite_cases s l w <;> rw [h] <;>
    exact .of_params_plans_eq rfl rfl

/-- Reset lays out `NPLANS` slots, however many there were (R190). -/
theorem platformReset_keepsShape (s : State) : KeepsShape s (platformReset s) :=
  ⟨rfl, fun _ => List.length_replicate⟩

/-- Taking a step from the host's queue is no change of shape. -/
theorem keepsShape_setHostIn_iff {s t : State} {rest : List HostStep} :
    KeepsShape (s.setHostIn rest) t ↔ KeepsShape s t := Iff.rfl

theorem step_keepsShape {s t : State} (h : step s = .next t) : KeepsShape s t := by
  obtain ⟨-, hs⟩ | ⟨w, rest, i, -, -, hs⟩ | ⟨w, rest, e, -, -, hs⟩ | ⟨l, w, rest, -, -, hs⟩ | ⟨l, rest, -, hs⟩ |
    ⟨rest, -, hs⟩ := step_cases s <;> rw [hs] at h
  · cases h; exact .of_params_plans_eq rfl rfl
  · exact keepsShape_setHostIn_iff.1 (exec_keepsShape h)
  · cases h; exact .of_params_plans_eq rfl rfl
  · cases h; exact keepsShape_setHostIn_iff.1 (hostWrite_keepsShape _ l w)
  · cases h; exact .of_params_plans_eq rfl rfl
  · cases h; exact keepsShape_setHostIn_iff.1 (platformReset_keepsShape _)

/-- Settles O55: every kind of step keeps the shape of the block (`step_keepsShape`). -/
theorem stepKeepsParametersAndSlotCount : Obligations.StepKeepsParametersAndSlotCount := by
  intro s t hlength hstep
  obtain ⟨hparams, hslots⟩ := step_keepsShape hstep
  exact ⟨hparams, hslots hlength⟩

end Sys2Proof.Machine
end

section
/-! PROOFS. O15, O17, O18, O19: what every command leaves alone (10_state.md R21, R25, R27, R30, R31). A command
ends with an error, and then wrote `STATUS` only, or with the writes of its one kind. -/

namespace Sys2Proof.Machine

/-- Everything a command can answer. -/
theorem exec_cases {i : Instr} {s t : State} (h : exec i s = .next t) :
    (∃ e, t = raise e s) ∨ ∃ u, CommandWrites i s u ∧ t = u.setStatus (statusWord 0) := by
  obtain ⟨r, hexec, hwrites⟩ := exec_writes i s
  obtain rfl : finish s r = t := Host.Outcome.next.inj (hexec.symm.trans h)
  cases r with
  | error e => exact .inl ⟨e, rfl⟩
  | ok u => exact .inr ⟨u, hwrites u rfl, rfl⟩

@[simp] theorem errField_statusWord_zero : errField (statusWord 0) = 0 := (statusWord_fields (by omega)).2

/-! ### The operands -/

/-- The fields that the writes of a command leave alone. -/
theorem CommandWrites.frame {i : Instr} {s t : State} (h : CommandWrites i s t) :
    t = { s with res := t.res, plans := t.plans, mem := t.mem } := by
  cases i with
  | modmul | modpow | proot => obtain ⟨v, rfl⟩ := h; rfl
  | twid slot => obtain ⟨-, d, -, rfl⟩ := h; rfl
  | bitrev dst => obtain ⟨-, ws, -, rfl⟩ := h; rfl
  | nttf slot src dst | ntti slot src dst => obtain ⟨-, ws, -, rfl⟩ := h; rfl
  | crt cnt src => obtain ⟨coeffs, rfl⟩ := h; rfl

/-- The fields that a command leaves alone. -/
theorem exec_frame {i : Instr} {s t : State} (h : exec i s = .next t) :
    t = { s with res := t.res, status := t.status, plans := t.plans, mem := t.mem } := by
  obtain ⟨e, rfl⟩ | ⟨u, hu, rfl⟩ := exec_cases h
  · rfl
  · rw [hu.frame]; rfl

/-- Settles O15: `RES`, `STATUS`, the slots and the words are all that a command can change (`exec_frame`). -/
theorem commandsLeaveOperandsAlone : Obligations.CommandsLeaveOperandsAlone := by
  intro i s t h
  rw [exec_frame h]
  exact ⟨rfl, rfl, rfl, rfl, rfl, rfl, rfl⟩

/-! ### The slots -/

theorem CommandWrites.of_plan_ne {i : Instr} {s t : State} {k : Nat} (h : CommandWrites i s t)
    (hne : t.plan k ≠ s.plan k) : i = .twid k ∧ (t.plan k).valid = true := by
  cases i with
  | modmul | modpow | proot => obtain ⟨v, rfl⟩ := h; exact absurd rfl hne
  | twid slot =>
    obtain ⟨-, d, -, rfl⟩ := h
    rw [storePlan_plan] at hne ⊢
    split_ifs at hne ⊢ with hk
    · exact ⟨by rw [hk], rfl⟩
    · exact absurd rfl hne
  | bitrev dst => obtain ⟨-, ws, -, rfl⟩ := h; exact absurd rfl hne
  | nttf slot src dst | ntti slot src dst => obtain ⟨-, ws, -, rfl⟩ := h; exact absurd rfl hne
  | crt cnt src => obtain ⟨coeffs, rfl⟩ := h; exact absurd rfl hne

/-- A plain host write reaches a scalar operand or a word of `SEQ` (R53, R55). -/
theorem hostWrite_frame (s : State) (l : Loc) (w : Word) :
    (hostWrite s l w).plans = s.plans ∧ (hostWrite s l w).params = s.params ∧ (hostWrite s l w).status = s.status ∧
      (hostWrite s l w).res = s.res ∧ ∀ a, a.space ≠ .seq → (hostWrite s l w).word a = s.word a := by
  obtain ⟨-, h⟩ | ⟨-, h⟩ | ⟨-, h⟩ | ⟨b, -, hb, -, h⟩ | h := hostWrite_cases s l w <;> rw [h]
  case inr.inr.inr.inl =>
    refine ⟨rfl, rfl, rfl, rfl, fun a ha => ?_⟩
    rw [State.setMem_word, Memory.get?_put_other _ (fun hab => ha ((congrArg Addr.space hab).trans hb))]
    rfl
  all_goals exact ⟨rfl, rfl, rfl, rfl, fun _ _ => rfl⟩

theorem step_of_hostWrite {s : State} {rest : List HostStep} {l : Loc} {w : Word}
    (hq : s.hostIn = .write l w :: rest) (hl : l ≠ .reg 0) : step s = .next (hostWrite (s.setHostIn rest) l w) := by
  simp [step, nextHostStep, hq, hostStep, hl]

/-- Settles O17: of the writes of commands only `TWID`'s reach a slot, and a plain host write reaches none. -/
theorem slotsWrittenOnlyByTwid : Obligations.SlotsWrittenOnlyByTwid := by
  refine ⟨fun i s t k h hne => ?_, fun s t l w rest hq hl h => ?_⟩
  · obtain ⟨e, rfl⟩ | ⟨u, hu, rfl⟩ := exec_cases h
    · exact absurd rfl hne
    · obtain ⟨hi, hvalid⟩ := hu.of_plan_ne hne
      exact ⟨hi, errField_statusWord_zero, hvalid⟩
  · obtain rfl := Host.Outcome.next.inj ((step_of_hostWrite hq hl).symm.trans h)
    obtain ⟨hplans, -, -, -, hword⟩ := hostWrite_frame (s.setHostIn rest) l w
    exact ⟨hplans, hword⟩

/-! ### The words -/

theorem storeSeq_word_ne {s : State} {b : Nat} {ws : List Word} {a : Addr}
    (h : (storeSeq s b ws).word a ≠ s.word a) : a.space = .seq ∧ a.hi = b ∧ a.lo < ws.length := by
  rw [storeSeq_word] at h
  split_ifs at h with ha
  · exact ha
  · exact absurd rfl h

theorem storePlan_word_ne {s : State} {slot : Nat} {n : Int} {d : PlanData} {a : Addr}
    (h : (storePlan s slot n d).word a ≠ s.word a) :
    (a.space = .tw ∨ a.space = .itw) ∧ a.hi = slot ∧ a.lo < max d.t.length d.it.length := by
  rw [storePlan_word] at h
  split_ifs at h with htw hitw
  · exact ⟨.inl htw.1, htw.2.1, lt_max_of_lt_left htw.2.2⟩
  · exact ⟨.inr hitw.1, hitw.2.1, lt_max_of_lt_right hitw.2.2⟩
  · exact absurd rfl h

theorem storeCrt_word_ne {s : State} {cnt src : Nat} {coeffs : List (Int × Int)} {a : Addr}
    (h : (storeCrt s cnt src coeffs).word a ≠ s.word a) :
    a.space = .cbuf ∧ a.hi < s.planN 0 ∧ a.lo < s.params.nplans := by
  rw [storeCrt_word] at h
  split_ifs at h with ha
  · exact ha
  · exact absurd rfl h

/-- Everything a successful computation of a plan has done (R126). -/
theorem planFor_ok {c : Params} {n p : Int} {d : PlanData} (h : planFor c n p = .ok d) :
    ∃ g winv ninv, primitiveRoot c.primeLimit p.toNat = .ok g ∧
      modInv (powMod g ((p - 1) / n).toNat p) p = .ok winv ∧ modInv n p = .ok ninv ∧
      d = { p := p, ninv := ninv, t := powersFrom (powMod g ((p - 1) / n).toNat p) p n.toNat 1,
            it := powersFrom winv p n.toNat 1 } := by
  unfold planFor at h
  split at h
  · cases h
  · rename_i g hg
    dsimp only at h
    split at h
    · cases h
    · rename_i winv hwinv
      split at h
      · cases h
      · rename_i ninv hninv
        cases h
        exact ⟨g, winv, ninv, hg, hwinv, hninv, rfl⟩

/-- Everything a successful `TWID` has checked and computed (R126). -/
theorem planInit_ok {c : Params} {n psel : Int} {d : PlanData} (h : planInit c n psel = .ok d) :
    lengthOk c n = true ∧ psel ≤ modMax ∧ ∃ p, chooseModulus c n psel = .ok p ∧ planFor c n p = .ok d := by
  unfold planInit at h
  split_ifs at h with hlength hpsel
  split at h
  · cases h
  · rename_i p hp
    exact ⟨hlength, by omega, p, hp, h⟩

theorem planInit_lengths {c : Params} {n psel : Int} {d : PlanData} (h : planInit c n psel = .ok d) :
    d.t.length = n.toNat ∧ d.it.length = n.toNat := by
  obtain ⟨-, -, p, -, hp⟩ := planInit_ok h
  obtain ⟨g, winv, ninv, -, -, -, rfl⟩ := planFor_ok hp
  simp

/-- Settles O18: a word that differs stands where the command's one store writes. -/
theorem commandsStoreOnlyIntoTheirOwnWords : Obligations.CommandsStoreOnlyIntoTheirOwnWords := by
  intro i s t a h hne
  obtain ⟨e, rfl⟩ | ⟨u, hu, rfl⟩ := exec_cases h
  · exact absurd rfl hne
  replace hne : u.word a ≠ s.word a := hne
  cases i with
  | modmul | modpow | proot => obtain ⟨v, rfl⟩ := hu; exact absurd rfl hne
  | twid slot =>
    obtain ⟨-, d, hd, rfl⟩ := hu
    obtain ⟨hspace, hhi, hlo⟩ := storePlan_word_ne hne
    obtain ⟨ht, hit⟩ := planInit_lengths hd
    rw [ht, hit, max_self] at hlo
    exact ⟨hspace, hhi, Int.lt_toNat.1 hlo⟩
  | bitrev dst =>
    obtain ⟨-, ws, hlength, rfl⟩ := hu
    obtain ⟨hspace, hhi, hlo⟩ := storeSeq_word_ne hne
    exact ⟨hspace, hhi, Int.lt_toNat.1 (hlo.trans_eq hlength)⟩
  | nttf slot src dst | ntti slot src dst =>
    obtain ⟨-, ws, hlength, rfl⟩ := hu
    obtain ⟨hspace, hhi, hlo⟩ := storeSeq_word_ne hne
    exact ⟨hspace, hhi, Int.lt_toNat.1 (hlo.trans_eq hlength)⟩
  | crt cnt src =>
    obtain ⟨coeffs, rfl⟩ := hu
    obtain ⟨hspace, hhi, hlo⟩ := storeCrt_word_ne hne
    exact ⟨hspace, Int.lt_toNat.1 hhi, hlo⟩

/-! ### No command reads `STATUS` -/

/-- A check that does not read `STATUS`, and what follows it. -/
theorem finish_guard_setStatus {s : State} {w : Word} {c : Prop} [Decidable c] {e : Err} {r' r : Except Err State}
    (h : finish (s.setStatus w) r' = finish s r) :
    finish (s.setStatus w) (if c then r' else .error e) = finish s (if c then r else .error e) := by
  split_ifs
  · exact h
  · rfl

theorem scalarCommand_setStatus (s : State) (w : Word) (value : Int → Except Err Int) :
    scalarCommand (s.setStatus w) value = scalarCommand s value := by
  refine finish_guard_setStatus ?_
  rw [show (s.setStatus w).m = s.m from rfl]
  cases value s.m <;> rfl

theorem transformCommand_setStatus (slot src dst : Nat) (s : State) (w : Word) (result : List Int → List Int) :
    transformCommand slot src dst (s.setStatus w) result = transformCommand slot src dst s result :=
  finish_guard_setStatus (finish_guard_setStatus rfl)

theorem exec_setStatus (i : Instr) (s : State) (w : Word) : exec i (s.setStatus w) = exec i s := by
  cases i with
  | modmul | modpow | proot => exact congrArg Host.Outcome.next (scalarCommand_setStatus s w _)
  | twid slot =>
    refine congrArg Host.Outcome.next (finish_guard_setStatus ?_)
    rw [show planInit (s.setStatus w).params (s.setStatus w).a (s.setStatus w).m = planInit s.params s.a s.m from rfl]
    cases planInit s.params s.a s.m <;> rfl
  | bitrev dst => exact congrArg Host.Outcome.next (finish_guard_setStatus (finish_guard_setStatus rfl))
  | nttf slot src dst | ntti slot src dst =>
    exact congrArg Host.Outcome.next (transformCommand_setStatus slot src dst s w _)
  | crt cnt src =>
    refine congrArg Host.Outcome.next (finish_guard_setStatus (finish_guard_setStatus (finish_guard_setStatus ?_)))
    rw [show crtPrimes (s.setStatus w) cnt = crtPrimes s cnt from rfl]
    cases crtCoeffs (primeProduct (crtPrimes s cnt)) (crtPrimes s cnt) <;> rfl

/-- Settles O19: no check and no computation of a command reads `STATUS`, and its end writes it (`exec_setStatus`). -/
theorem noCommandReadsStatus : Obligations.NoCommandReadsStatus := exec_setStatus

end Sys2Proof.Machine
end

section
/-! PROOFS. What the kernel functions that `TWID` calls answer (40_kernel_functions.md R91 to R99,
42_root_search.md R120, 43_plan_init.md R125), as far as the plan invariant R28 needs it. -/

namespace Sys2Proof.Machine

/-- A value in `[0, MOD_MAX]` is what its word reads as (R5, R7). -/
theorem sint_wrap64_of_le_modMax {v : Int} (low : 0 ≤ v) (high : v ≤ modMax) : sint (wrap64 v) = v := by
  unfold modMax at high
  exact sint_wrap64 (by omega) (by omega)

/-! ### Powers and inverses -/

theorem powLoop_eq (m : Int) : ∀ (k : Nat) (r x : Int) (e : Nat), e ≤ k → r % m = r →
    powLoop k r x e m = r * x ^ e % m := by
  intro k
  induction k with
  | zero =>
    intro r x e he hr
    obtain rfl : e = 0 := by omega
    simp [powLoop, hr]
  | succ k ih =>
    intro r x e he hr
    simp only [powLoop, modMul]
    split_ifs with h0 hodd
    · simp [h0, hr]
    · have hx : x ^ e = x * (x * x) ^ (e / 2) := by
        rw [← pow_two, ← pow_mul, ← pow_succ']; congr 1; omega
      rw [ih _ _ _ (by omega) (Int.emod_emod _ _), hx, ← mul_assoc]
      exact Int.ModEq.mul (Int.mod_modEq _ _) ((Int.mod_modEq _ _).pow _)
    · have hx : x ^ e = (x * x) ^ (e / 2) := by
        rw [← pow_two, ← pow_mul]; congr 1; omega
      rw [ih _ _ _ (by omega) hr, hx]
      exact Int.ModEq.mul_left _ ((Int.mod_modEq _ _).pow _)

/-- `ModPow` is the power reduced once (R94). -/
theorem powMod_eq (a : Int) (e : Nat) (m : Int) : powMod a e m = a ^ e % m := by
  rw [powMod, powLoop_eq _ _ _ _ _ le_rfl (Int.emod_emod _ _)]
  exact ((Int.mod_modEq 1 m).mul ((Int.mod_modEq a m).pow e)).trans (by rw [one_mul])

/-- The coefficients of `Egcd` give its first component (R91). -/
theorem egcdLoop_bezout : ∀ k a b : Nat, a ≤ k →
    (egcdLoop k a b).2.1 * a + (egcdLoop k a b).2.2 * b = (egcdLoop k a b).1 := by
  intro k
  induction k with
  | zero =>
    intro a b ha
    obtain rfl : a = 0 := by omega
    simp [egcdLoop]
  | succ k ih =>
    intro a b ha
    rw [egcdLoop]
    split_ifs with h0
    · simp [h0]
    · have hlt : b % a < a := Nat.mod_lt _ (by omega)
      have hdiv : (b : Int) = a * (b / a : Nat) + (b % a : Nat) := by
        exact_mod_cast (Nat.div_add_mod b a).symm
      linear_combination ih (b % a) a (by omega) + (egcdLoop k (b % a) a).2.1 * hdiv

/-- What `ModInv` answers is an inverse in `[0, m)` (R92). -/
theorem modInv_ok {a m v : Int} (hm : 1 ≤ m) (h : modInv a m = .ok v) :
    0 ≤ v ∧ v < m ∧ a * v % m = 1 % m := by
  simp only [modInv] at h
  split_ifs at h with hg
  cases h
  refine ⟨Int.emod_nonneg _ (by omega), Int.emod_lt_of_pos _ (by omega), ?_⟩
  have hbez := egcdLoop_bezout _ (a % m).toNat m.toNat le_rfl
  rw [← egcd, hg, Int.toNat_of_nonneg (Int.emod_nonneg a (by omega)), Int.toNat_of_nonneg (by omega)] at hbez
  generalize (egcd (a % m).toNat m.toNat).2.1 = x at hbez ⊢
  generalize (egcd (a % m).toNat m.toNat).2.2 = y at hbez
  calc a * (x % m) ≡ a % m * x [ZMOD m] := (Int.mod_modEq a m).symm.mul (Int.mod_modEq x m)
    _ ≡ 1 [ZMOD m] := Int.modEq_iff_dvd.2 ⟨y, by push_cast at hbez; linear_combination -hbez⟩

/-! ### Primes and factors -/

/-- Trial division rules out every divisor from `d` on whose square is at most `n`, if its bound reaches that far. -/
theorem trialDivision_not_dvd {n : Nat} : ∀ k d : Nat, trialDivision k d n = true → n < (d + k) * (d + k) →
    ∀ c, d ≤ c → c * c ≤ n → ¬ c ∣ n := by
  intro k
  induction k with
  | zero =>
    intro d _ hn c hdc hcn
    rw [Nat.add_zero] at hn
    exact absurd (Nat.mul_le_mul hdc hdc) (by omega)
  | succ k ih =>
    intro d h hn c hdc hcn
    rw [trialDivision] at h
    split_ifs at h with hlt hmod
    · exact absurd (Nat.mul_le_mul hdc hdc) (by omega)
    · rcases eq_or_lt_of_le hdc with rfl | hlt'
      · exact fun hd => hmod (Nat.mod_eq_zero_of_dvd hd)
      · exact ih (d + 1) h (by rwa [show d + 1 + k = d + (k + 1) by ring]) c hlt' hcn

/-- What passes `IsPrime` is a prime number (R95). -/
theorem exists_prime_of_isPrime {limit : Nat} {p : Int} (h : isPrime limit p = true) :
    ∃ P : Nat, Nat.Prime P ∧ p = P := by
  simp only [isPrime, Bool.and_eq_true, decide_eq_true_eq] at h
  obtain ⟨⟨h2, -⟩, htrial⟩ := h
  refine ⟨p.toNat, Nat.prime_def_le_sqrt.2 ⟨by omega, fun c hc hsqrt => ?_⟩, by omega⟩
  exact trialDivision_not_dvd _ _ htrial (by nlinarith) c hc (Nat.le_sqrt.1 hsqrt)

theorem divideOut_dvd (c : Nat) : ∀ k r : Nat, divideOut k c r ∣ r := by
  intro k
  induction k with
  | zero => exact fun r => dvd_rfl
  | succ k ih =>
    intro r
    rw [divideOut]
    split_ifs with h
    · exact (ih _).trans (Nat.div_dvd_of_dvd (Nat.dvd_of_mod_eq_zero h))
    · exact dvd_rfl

theorem divideOut_one {c : Nat} (hc : 1 < c) (k : Nat) : divideOut k c 1 = 1 := by
  cases k with
  | zero => rfl
  | succ k => simp [divideOut, Nat.mod_eq_of_lt hc]

theorem divideOut_self {p : Nat} (hp : 1 < p) : divideOut p p p = 1 := by
  obtain ⟨k, rfl⟩ := Nat.exists_eq_succ_of_ne_zero (show p ≠ 0 by omega)
  simp [divideOut, divideOut_one hp]

/-- What holds of the factors found and the quotient left, and stays when a divisor above 1 is taken out. -/
def KeptByTakeFactor (I : List Nat × Nat → Prop) : Prop :=
  ∀ (c : Nat) (st : List Nat × Nat), 1 < c → c ∣ st.2 → I st → I (takeFactor c st)

theorem KeptByTakeFactor.ite {I : List Nat × Nat → Prop} (hkept : KeptByTakeFactor I) {c : Nat} (hc : 1 < c)
    {st : List Nat × Nat} (h : I st) : I (if st.2 % c = 0 then takeFactor c st else st) := by
  split_ifs with hmod
  · exact hkept c st hc (Nat.dvd_of_mod_eq_zero hmod) h
  · exact h

theorem KeptByTakeFactor.factorLoop {I : List Nat × Nat → Prop} (hkept : KeptByTakeFactor I) (limit : Nat) :
    ∀ (k c stride : Nat) (st : List Nat × Nat), 1 < c → I st → I (factorLoop limit k c stride st) := by
  intro k
  induction k with
  | zero => exact fun _ _ _ _ h => h
  | succ k ih =>
    intro c stride st hc h
    rw [Machine.factorLoop]
    split_ifs with hle hfactor
    · exact ih _ _ _ (by omega) (hkept c st hc (Nat.dvd_of_mod_eq_zero hfactor.1) h)
    · exact ih _ _ _ (by omega) h
    · exact h

/-- How `FactorUUP` ends (R97): what is kept from the state after the factor 2 on holds of the last state. -/
theorem KeptByTakeFactor.factorUUP {I : List Nat × Nat → Prop} (hkept : KeptByTakeFactor I) (limit n : Nat)
    (h : I (if n % 2 = 0 then takeFactor 2 ([], n) else ([], n))) :
    ∃ st, I st ∧ factorUUP limit n = if 1 < st.2 then st.1 ++ [st.2] else st.1 :=
  ⟨_, hkept.factorLoop limit n 5 2 _ (by omega) (hkept.ite (by omega) h), rfl⟩

/-- Every member of `FactorUUP(n)` is a divisor of `n` above 1. -/
theorem mem_factorUUP {limit n q : Nat} (hq : q ∈ factorUUP limit n) : 1 < q ∧ q ∣ n := by
  have hkept : KeptByTakeFactor fun st => (∀ q ∈ st.1, 1 < q ∧ q ∣ n) ∧ st.2 ∣ n := by
    rintro c st hc hdvd ⟨hfound, hrest⟩
    refine ⟨fun q hq => ?_, (divideOut_dvd _ _ _).trans hrest⟩
    rcases List.mem_append.1 hq with hq | hq
    · exact hfound q hq
    · obtain rfl := List.mem_singleton.1 hq
      exact ⟨hc, hdvd.trans hrest⟩
  obtain ⟨st, ⟨hfound, hrest⟩, heq⟩ :=
    hkept.factorUUP limit n (hkept.ite (st := ([], n)) one_lt_two ⟨by simp, dvd_rfl⟩)
  rw [heq] at hq
  split_ifs at hq with hlast
  · rcases List.mem_append.1 hq with hq | hq
    · exact hfound q hq
    · obtain rfl := List.mem_singleton.1 hq
      exact ⟨hlast, hrest⟩
  · exact hfound q hq

theorem two_mem_factorUUP {n : Nat} (limit : Nat) (hn : n % 2 = 0) : 2 ∈ factorUUP limit n := by
  have hkept : KeptByTakeFactor fun st => 2 ∈ st.1 := fun c st _ _ h => List.mem_append_left _ h
  obtain ⟨st, hmem, heq⟩ := hkept.factorUUP limit n (by simp [hn, takeFactor])
  rw [heq]
  split_ifs
  · exact List.mem_append_left _ hmem
  · exact hmem

/-- The factors of a prime: nothing is found until the prime itself is. -/
theorem factorUUP_prime {P : Nat} (hP : Nat.Prime P) (limit : Nat) : factorUUP limit P = [P] := by
  have hkept : KeptByTakeFactor fun st => st = ([], P) ∨ st = ([P], 1) := by
    rintro c st hc hdvd (rfl | rfl)
    · obtain rfl := (hP.eq_one_or_self_of_dvd c hdvd).resolve_left (by omega)
      exact .inr (by simp [takeFactor, divideOut_self hc])
    · exact absurd (Nat.dvd_one.1 hdvd) (by omega)
  obtain ⟨st, rfl | rfl, heq⟩ := hkept.factorUUP limit P (hkept.ite (st := ([], P)) one_lt_two (.inl rfl))
  · simp [heq, hP.one_lt]
  · simp [heq]

theorem totientOf_prime {P : Nat} (hP : Nat.Prime P) (limit : Nat) : totientOf limit P = P - 1 := by
  simp [totientOf, factorUUP_prime hP, Nat.div_self hP.pos]

/-- A length that `IsPow2` accepts is a power of two (R99). -/
theorem exists_pow_of_isPow2 {n : Int} (h : isPow2 n = true) : ∃ e : Nat, n = 2 ^ e := by
  simp only [isPow2, Bool.and_eq_true, decide_eq_true_eq] at h
  obtain ⟨hlow, hpow⟩ := h
  lift n to Nat using by omega
  exact ⟨n.log2, by exact_mod_cast hpow⟩

/-! ### The two searches -/

/-- The modulus that the search finds is a candidate that passes (R125). -/
theorem modulusScan_ok {limit n : Nat} {p : Int} : ∀ fuel k : Nat, modulusScan limit n fuel k = .ok p →
    (∃ j : Nat, k ≤ j ∧ p = n * j + 1) ∧ isPrime limit p = true ∧ p ≤ modMax := by
  intro fuel
  induction fuel with
  | zero => intro k h; cases h
  | succ fuel ih =>
    intro k h
    rw [modulusScan] at h
    split_ifs at h with hbound hprime
    · cases h
      exact ⟨⟨k, le_rfl, by push_cast; rfl⟩, hprime, by omega⟩
    · obtain ⟨⟨j, hj, hp⟩, hrest⟩ := ih _ h
      exact ⟨⟨j, by omega, hp⟩, hrest⟩

/-- The scan for a root answers its least passing candidate (R120). -/
theorem rootScan_ok {n phi : Nat} {qs : List Nat} {g : Int} : ∀ k a : Nat, rootScan n phi qs k a = .ok g →
    ∃ c : Nat, g = c ∧ a ≤ c ∧ c < a + k ∧ rootTest n phi qs c = true ∧
      ∀ b, a ≤ b → b < c → rootTest n phi qs b = false := by
  intro k
  induction k with
  | zero => intro a h; cases h
  | succ k ih =>
    intro a h
    rw [rootScan] at h
    split_ifs at h with htest
    · cases h
      exact ⟨a, rfl, le_rfl, by omega, htest, fun b hab hba => by omega⟩
    · obtain ⟨c, hg, hac, hck, hc, hleast⟩ := ih _ h
      refine ⟨c, hg, by omega, by omega, hc, fun b hab hbc => ?_⟩
      rcases eq_or_lt_of_le hab with rfl | hlt
      · simpa using htest
      · exact hleast b hlt hbc

/-- What `PrimitiveRoot(n)` answers stands in `[2, n]` (R120). -/
theorem primitiveRoot_range {limit n : Nat} {g : Int} (h : primitiveRoot limit n = .ok g) : 2 ≤ g ∧ g ≤ n := by
  obtain ⟨c, rfl, hlow, hhigh, -⟩ := rootScan_ok _ _ h
  omega

/-- A remainder is 1 exactly when the residue class is. -/
theorem emod_eq_one_iff {P : Nat} (hP : 1 < P) (v : Int) : v % P = 1 ↔ (v : ZMod P) = 1 := by
  have h1 : (1 : Int) % P = 1 := Int.emod_eq_of_lt (by omega) (by omega)
  simpa [h1] using (ZMod.intCast_eq_intCast_iff' v 1 P).symm

theorem rootTest_eq_true_iff {P phi : Nat} (hP : 1 < P) (qs : List Nat) (a : Nat) :
    rootTest P phi qs a = true ↔ ∀ q ∈ qs, (a : ZMod P) ^ (phi / q) ≠ 1 := by
  simp [rootTest, powMod_eq, emod_eq_one_iff hP]

/-- Every prime has a primitive root, which passes the test of R120. -/
theorem exists_rootTest {P : Nat} (hP : Nat.Prime P) (h3 : 3 ≤ P) (limit : Nat) :
    ∃ b, 2 ≤ b ∧ b < P ∧ rootTest P (P - 1) (factorUUP limit (P - 1)) b = true := by
  have := Fact.mk hP
  obtain ⟨u, hu⟩ := isCyclic_iff_exists_orderOf_eq_natCard.1 (ZMod.isCyclic_units_prime hP)
  rw [Nat.card_eq_fintype_card, ZMod.card_units, ← orderOf_units] at hu
  refine ⟨(u : ZMod P).val, ?_, ZMod.val_lt _, (rootTest_eq_true_iff hP.one_lt _ _).2 fun q hq => ?_⟩
  · by_contra hlt
    have h01 : (u : ZMod P).val = 0 ∨ (u : ZMod P).val = 1 := by omega
    rcases h01 with h0 | h1
    · exact u.ne_zero ((ZMod.val_eq_zero _).1 h0)
    · rw [(ZMod.val_eq_one hP.one_lt _).1 h1, orderOf_one] at hu
      omega
  · obtain ⟨hq1, hq⟩ := mem_factorUUP hq
    rw [ZMod.natCast_zmod_val]
    have hpos : 0 < (P - 1) / q := Nat.div_pos (Nat.le_of_dvd (by omega) hq) (by omega)
    exact pow_ne_one_of_lt_orderOf hpos.ne' (hu ▸ Nat.div_lt_self (by omega) hq1)

/-- `PrimitiveRoot` of a prime is not 0 modulo the prime, and its power to the half order is not 1. -/
theorem primitiveRoot_prime {P limit : Nat} {g : Int} (hP : Nat.Prime P) (h3 : 3 ≤ P)
    (h : primitiveRoot limit P = .ok g) : (g : ZMod P) ≠ 0 ∧ (g : ZMod P) ^ ((P - 1) / 2) ≠ 1 := by
  rw [primitiveRoot, totientOf_prime hP] at h
  obtain ⟨c, rfl, hlow, -, htest, hleast⟩ := rootScan_ok _ _ h
  obtain ⟨b, hb2, hbP, hb⟩ := exists_rootTest hP h3 limit
  have hcP : c < P := by
    by_contra hle
    simp [hleast b hb2 (by omega)] at hb
  have heven : (P - 1) % 2 = 0 := by
    have := hP.eq_two_or_odd
    omega
  rw [Int.cast_natCast]
  refine ⟨fun h0 => ?_, (rootTest_eq_true_iff hP.one_lt _ _).1 htest 2 (two_mem_factorUUP limit heven)⟩
  exact absurd (Nat.le_of_dvd (by omega) ((ZMod.natCast_eq_zero_iff _ _).1 h0)) (by omega)

end Sys2Proof.Machine
end

section
/-! PROOFS. O53: the plan invariant R28 (10_state.md). `TWID` computes a plan (43_plan_init.md R126) and stores
it in its slot; no other step changes a slot or a table, but for a reset, which leaves no plan. -/

namespace Sys2Proof.Machine

/-! ### What `TWID` computes -/

theorem lengthOk_iff {c : Params} {n : Int} : lengthOk c n = true ↔ 2 ≤ n ∧ n ≤ c.nmax ∧ isPow2 n = true := by
  simp [lengthOk, and_assoc]

/-- The modulus of a plan (R125, R126): a prime in range that is 1 modulo the length. -/
theorem chooseModulus_ok {c : Params} {n psel p : Int} (hn : 2 ≤ n) (hpsel : psel ≤ modMax)
    (h : chooseModulus c n psel = .ok p) : isPrime c.primeLimit p = true ∧ p ≤ modMax ∧ p % n = 1 := by
  unfold chooseModulus at h
  split_ifs at h with h0 hform
  · obtain ⟨⟨j, -, hp⟩, hprime, hhigh⟩ := modulusScan_ok _ _ h
    rw [Int.toNat_of_nonneg (by omega)] at hp
    refine ⟨hprime, hhigh, ?_⟩
    rw [hp, Int.mul_add_emod_self_left, Int.emod_eq_of_lt (by omega) (by omega)]
  · cases h
    refine ⟨hform.2, hpsel, ?_⟩
    have hmod : psel % n = 1 % n := (Int.modEq_iff_dvd.2 (Int.dvd_of_emod_eq_zero hform.1)).symm
    exact hmod.trans (Int.emod_eq_of_lt (by omega) (by omega))

theorem powersFrom_getD (w p : Int) : ∀ (k : Nat) (t : Int) (i : Nat), i < k → t % p = t →
    (powersFrom w p k t).getD i 0 = t * w ^ i % p := by
  intro k
  induction k with
  | zero => intro t i hi; omega
  | succ k ih =>
    intro t i hi ht
    rw [powersFrom]
    cases i with
    | zero => simp [ht]
    | succ i =>
      rw [List.getD_cons_succ, ih (modMul t w p) i (by omega) (Int.emod_emod _ _), pow_succ', ← mul_assoc]
      exact (Int.mod_modEq _ _).mul_right _

/-- The root of a plan has the order of the plan's length, a power of two (R28 (c)). -/
theorem orderOf_planRoot {P e limit : Nat} {g : Int} (hP : Nat.Prime P) (hdvd : 2 ^ (e + 1) ∣ P - 1)
    (h : primitiveRoot limit P = .ok g) :
    orderOf ((g ^ ((P - 1) / 2 ^ (e + 1)) : Int) : ZMod P) = 2 ^ (e + 1) := by
  have := Fact.mk hP
  have h3 : 3 ≤ P := by
    have h1 := hP.one_lt
    have h2 : 2 ∣ P - 1 := (dvd_pow_self 2 e.succ_ne_zero).trans hdvd
    omega
  obtain ⟨k, hk⟩ := hdvd
  obtain ⟨hg0, hghalf⟩ := primitiveRoot_prime hP h3 h
  have hhalf : (P - 1) / 2 = k * 2 ^ e := by
    rw [hk, pow_succ, mul_assoc, mul_comm, mul_assoc, Nat.mul_div_cancel_left _ two_pos]
  push_cast
  rw [hk, Nat.mul_div_cancel_left _ (by positivity)]
  refine orderOf_eq_prime_pow ?_ ?_
  · rwa [← pow_mul, ← hhalf]
  · rw [← pow_mul, mul_comm k, ← hk, ZMod.pow_card_sub_one_eq_one hg0]

/-- What R28 asks of the numbers of a plan of length `n`, before they are stored: `w` the root, `winv` its inverse. -/
structure PlanData.Ok (c : Params) (n : Int) (d : PlanData) (w winv : Int) : Prop where
  prime : isPrime c.primeLimit d.p = true
  modulusHigh : d.p ≤ modMax
  modulusForm : d.p % n = 1
  root : 0 ≤ w ∧ w < d.p
  inverse : 0 ≤ winv ∧ winv < d.p ∧ w * winv % d.p = 1
  rootOrder : ∀ m : Nat, w ^ m % d.p = 1 ↔ n.toNat ∣ m
  lengthInverse : 0 ≤ d.ninv ∧ d.ninv < d.p ∧ n * d.ninv % d.p = 1
  table : d.t = powersFrom w d.p n.toNat 1
  inverseTable : d.it = powersFrom winv d.p n.toNat 1

theorem planFor_planDataOk {c : Params} {n p : Int} {d : PlanData} {e : Nat} (hn : n = 2 ^ (e + 1))
    (hprime : isPrime c.primeLimit p = true) (hhigh : p ≤ modMax) (hform : p % n = 1) (h : planFor c n p = .ok d) :
    ∃ w winv, PlanData.Ok c n d w winv := by
  obtain ⟨g, winv, ninv, hg, hwinv, hninv, rfl⟩ := planFor_ok h
  obtain ⟨P, hP, rfl⟩ := exists_prime_of_isPrime hprime
  have h1 := hP.one_lt
  have hone : (1 : Int) % P = 1 := Int.emod_eq_of_lt (by omega) (by omega)
  have hdvd : 2 ^ (e + 1) ∣ P - 1 := by
    have : n ∣ (P : Int) - 1 := Int.dvd_self_sub_of_emod_eq hform
    rw [hn, ← Nat.cast_pred hP.pos] at this
    exact_mod_cast this
  have hexp : (((P : Int) - 1) / n).toNat = (P - 1) / 2 ^ (e + 1) := by
    rw [hn, ← Nat.cast_pred hP.pos]
    norm_cast
  rw [hexp] at hwinv ⊢
  obtain ⟨hwinv0, hwinvP, hinverse⟩ := modInv_ok (by omega) hwinv
  obtain ⟨hninv0, hninvP, hlength⟩ := modInv_ok (by omega) hninv
  have hw := powMod_eq g ((P - 1) / 2 ^ (e + 1)) P
  refine ⟨_, winv,
    { prime := hprime, modulusHigh := hhigh, modulusForm := hform
      root := by rw [hw]; exact ⟨Int.emod_nonneg _ (by omega), Int.emod_lt_of_pos _ (by omega)⟩
      inverse := ⟨hwinv0, hwinvP, hinverse.trans hone⟩
      rootOrder := fun m => ?_
      lengthInverse := ⟨hninv0, hninvP, hlength.trans hone⟩
      table := rfl, inverseTable := rfl }⟩
  rw [emod_eq_one_iff h1, Int.cast_pow, hw, ZMod.intCast_mod, ← orderOf_dvd_iff_pow_eq_one,
    orderOf_planRoot hP hdvd (Int.toNat_natCast P ▸ hg), hn]
  norm_cast

/-- A `TWID` that succeeds has a length it accepts and the numbers of a plan (R126). -/
theorem planInit_planDataOk {c : Params} {n psel : Int} {d : PlanData} (h : planInit c n psel = .ok d) :
    (∃ e : Nat, n = 2 ^ (e + 1)) ∧ n ≤ c.nmax ∧ ∃ w winv, PlanData.Ok c n d w winv := by
  obtain ⟨hlength, hpsel, p, hp, hplan⟩ := planInit_ok h
  obtain ⟨hlow, hhigh, hpow⟩ := lengthOk_iff.1 hlength
  obtain ⟨e, rfl⟩ := exists_pow_of_isPow2 hpow
  obtain ⟨e, rfl⟩ := Nat.exists_eq_succ_of_ne_zero (show e ≠ 0 by rintro rfl; omega)
  obtain ⟨hprime, hmax, hform⟩ := chooseModulus_ok hlow hpsel hp
  exact ⟨⟨e, rfl⟩, hhigh, planFor_planDataOk rfl hprime hmax hform hplan⟩

/-! ### What `TWID` stores -/

theorem PlanData.Ok.one_lt {c : Params} {n w winv : Int} {d : PlanData} (h : PlanData.Ok c n d w winv) : 1 < d.p := by
  obtain ⟨P, hP, hd⟩ := exists_prime_of_isPrime h.prime
  have := hP.one_lt
  omega

/-- The tables of the slot that a plan was stored in (R28 (d)). -/
theorem storePlan_tables {s : State} {slot : Nat} {n w winv : Int} {d : PlanData}
    (h : PlanData.Ok s.params n d w winv) {i : Nat} (hi : i < n.toNat) :
    sint ((storePlan s slot n d).tw slot i) = w ^ i % d.p ∧
      sint ((storePlan s slot n d).itw slot i) = winv ^ i % d.p := by
  have h1 := h.one_lt
  have entry (v : Int) : sint (wrap64 ((powersFrom v d.p n.toNat 1).getD i 0)) = v ^ i % d.p := by
    rw [powersFrom_getD _ _ _ _ _ hi (Int.emod_eq_of_lt (by omega) h1), one_mul]
    exact sint_wrap64_of_le_modMax (Int.emod_nonneg _ (by omega))
      ((Int.emod_lt_of_pos _ (by omega)).le.trans h.modulusHigh)
  simpa [State.tw_eq_word, State.itw_eq_word, storePlan_word, h.table, h.inverseTable, hi] using
    And.intro (entry w) (entry winv)

/-- The slot that `TWID` stores a plan in meets R28. -/
theorem planOk_storePlan {s : State} {slot e : Nat} {d : PlanData} {w winv : Int} (hn : s.a = 2 ^ (e + 1))
    (hmax : s.a ≤ s.params.nmax) (h : PlanData.Ok s.params s.a d w winv) : PlanOk (storePlan s slot s.a d) slot := by
  have h1 := h.one_lt
  have h2 : 2 ≤ s.a := by
    have := pow_pos (show (0 : Int) < 2 by omega) e
    rw [hn, pow_succ]; omega
  obtain ⟨hw0, hwp⟩ := h.root
  obtain ⟨hwinv0, hwinvp, hinverse⟩ := h.inverse
  obtain ⟨hninv0, hninvp, hlength⟩ := h.lengthInverse
  have hplan := storePlan_plan s slot s.a d slot
  rw [if_pos rfl] at hplan
  have hlen : sint ((storePlan s slot s.a d).plan slot).n = s.a := by rw [hplan]; exact congrArg sint (wrap64_sint _)
  have hlenN : (storePlan s slot s.a d).planN slot = s.a.toNat := congrArg Int.toNat hlen
  have hp : (storePlan s slot s.a d).planP slot = d.p := by
    rw [State.planP, hplan]; exact sint_wrap64_of_le_modMax (by omega) h.modulusHigh
  have hninv : (storePlan s slot s.a d).planNinv slot = d.ninv := by
    rw [State.planNinv, hplan]; exact sint_wrap64_of_le_modMax hninv0 (hninvp.le.trans h.modulusHigh)
  obtain ⟨htw1, hitw1⟩ := storePlan_tables (slot := slot) h (show 1 < s.a.toNat by omega)
  rw [pow_one, Int.emod_eq_of_lt hw0 hwp] at htw1
  rw [pow_one, Int.emod_eq_of_lt hwinv0 hwinvp] at hitw1
  constructor <;> simp only [hlen, hlenN, hp, hninv, htw1, hitw1]
  case lengthPow2 => exact ⟨e + 1, hn⟩
  case lengthLow => exact h2
  case lengthHigh => exact hmax
  case prime => exact h.prime
  case modulusHigh => exact h.modulusHigh
  case modulusForm => exact h.modulusForm
  case rootPower => exact (h.rootOrder _).2 dvd_rfl
  case rootOrder => exact fun m hlt hpos hone => absurd (Nat.le_of_dvd hpos ((h.rootOrder m).1 hone)) (by omega)
  case inverseRoot => exact hinverse
  case table => exact fun i hi => (storePlan_tables h hi).1
  case inverseTable => exact fun i hi => (storePlan_tables h hi).2
  case lengthInverse => rwa [mul_comm]
  case lengthInverseLow =>
    by_contra hlt
    obtain h0 : d.ninv = 0 := by omega
    simp [h0] at hlength
  case lengthInverseHigh => exact hninvp

/-! ### What keeps the plans -/

/-- R28 of a slot reads the parameters, the slot and its two tables only. -/
theorem PlanOk.congr {s t : State} {slot : Nat} (h : PlanOk s slot) (hparams : t.params = s.params)
    (hplan : t.plan slot = s.plan slot)
    (hword : ∀ a, a.space = .tw ∨ a.space = .itw → a.hi = slot → t.word a = s.word a) : PlanOk t slot := by
  have htw (i : Nat) : t.tw slot i = s.tw slot i := hword _ (.inl rfl) rfl
  have hitw (i : Nat) : t.itw slot i = s.itw slot i := hword _ (.inr rfl) rfl
  obtain ⟨⟩ := h
  constructor <;> simp only [State.planN, State.planP, State.planNinv, hparams, hplan, htw, hitw] <;> assumption

/-- From `s` to `t` the parameters, the slots and the tables stay. -/
def KeepsPlans (s t : State) : Prop :=
  t.params = s.params ∧ t.plans = s.plans ∧ ∀ a, a.space = .tw ∨ a.space = .itw → t.word a = s.word a

theorem KeepsPlans.refl (s : State) : KeepsPlans s s := ⟨rfl, rfl, fun _ _ => rfl⟩

theorem KeepsPlans.planInvariant {s t : State} (h : KeepsPlans s t) (hs : PlanInvariant s) : PlanInvariant t := by
  obtain ⟨hparams, hplans, hword⟩ := h
  intro slot hslot hvalid
  have hplan : t.plan slot = s.plan slot := congrArg (slotAt · slot) hplans
  exact (hs slot (hparams ▸ hslot) (hplan ▸ hvalid)).congr hparams hplan fun a ha _ => hword a ha

/-- A store outside the tables keeps the plans. -/
theorem KeepsPlans.of_setMem {s : State} {m : Memory} {sp : Space} (hsp : sp = .seq ∨ sp = .cbuf)
    (h : ∀ a, (s.setMem m).word a ≠ s.word a → a.space = sp) : KeepsPlans s (s.setMem m) := by
  refine ⟨rfl, rfl, fun a ha => ?_⟩
  by_contra hne
  obtain rfl := h a hne
  rcases hsp with h | h <;> simp [h] at ha

/-- A `TWID` keeps the invariant: its slot gets a plan, and the others keep theirs. -/
theorem storePlan_planInvariant {s : State} {slot : Nat} {d : PlanData} (hs : PlanInvariant s)
    (hd : planInit s.params s.a s.m = .ok d) : PlanInvariant (storePlan s slot s.a d) := by
  intro k hk hvalid
  by_cases hkslot : k = slot
  · subst hkslot
    obtain ⟨⟨e, hn⟩, hmax, w, winv, h⟩ := planInit_planDataOk hd
    exact planOk_storePlan hn hmax h
  · have hplan := storePlan_plan s slot s.a d k
    rw [if_neg hkslot] at hplan
    refine (hs k hk (hplan ▸ hvalid)).congr rfl hplan fun a _ hhi => ?_
    by_contra hne
    exact hkslot (hhi.symm.trans (storePlan_word_ne hne).2.1)

theorem CommandWrites.planInvariant {i : Instr} {s t : State} (h : CommandWrites i s t) (hs : PlanInvariant s) :
    PlanInvariant t := by
  cases i with
  | modmul | modpow | proot =>
    obtain ⟨v, rfl⟩ := h
    exact KeepsPlans.planInvariant (.refl s) hs
  | twid slot =>
    obtain ⟨-, d, hd, rfl⟩ := h
    exact storePlan_planInvariant hs hd
  | bitrev dst =>
    obtain ⟨-, ws, -, rfl⟩ := h
    exact (KeepsPlans.of_setMem (.inl rfl) fun a ha => (storeSeq_word_ne ha).1).planInvariant hs
  | nttf slot src dst | ntti slot src dst =>
    obtain ⟨-, ws, -, rfl⟩ := h
    exact (KeepsPlans.of_setMem (.inl rfl) fun a ha => (storeSeq_word_ne ha).1).planInvariant hs
  | crt cnt src =>
    obtain ⟨coeffs, rfl⟩ := h
    exact (KeepsPlans.of_setMem (.inr rfl) fun a ha => (storeCrt_word_ne ha).1).planInvariant hs

/-- `STATUS`, the operands, the result and the model's own queue and replies are no part of R28. -/
theorem planInvariant_setStatus {s : State} {w : Word} (hs : PlanInvariant s) : PlanInvariant (s.setStatus w) :=
  KeepsPlans.planInvariant (.refl s) hs

theorem exec_planInvariant {i : Instr} {s t : State} (h : exec i s = .next t) (hs : PlanInvariant s) :
    PlanInvariant t := by
  obtain ⟨e, rfl⟩ | ⟨u, hu, rfl⟩ := exec_cases h
  · exact planInvariant_setStatus hs
  · exact planInvariant_setStatus (hu.planInvariant hs)

theorem hostWrite_keepsPlans (s : State) (l : Loc) (w : Word) : KeepsPlans s (hostWrite s l w) := by
  obtain ⟨hplans, hparams, -, -, hword⟩ := hostWrite_frame s l w
  refine ⟨hparams, hplans, fun a ha => hword a ?_⟩
  rcases ha with ha | ha <;> simp [ha]

/-- A slot of a list of reset slots holds no plan. -/
theorem slotAt_replicate_reset (n k : Nat) : slotAt (List.replicate n PlanSlot.reset) k = PlanSlot.reset := by
  simp only [slotAt, List.getD_eq_getElem?_getD, List.getElem?_replicate]
  split_ifs <;> rfl

/-- The invariant holds where no slot holds a plan (R34, R190). -/
theorem planInvariant_of_plans_eq {s : State} {n : Nat} (h : s.plans = List.replicate n PlanSlot.reset) :
    PlanInvariant s := by
  intro slot _ hvalid
  rw [State.plan, h, slotAt_replicate_reset] at hvalid
  cases hvalid

theorem step_planInvariant {s t : State} (h : step s = .next t) (hs : PlanInvariant s) : PlanInvariant t := by
  have hq (rest : List HostStep) : PlanInvariant (s.setHostIn rest) := KeepsPlans.planInvariant (.refl s) hs
  obtain ⟨-, hstep⟩ | ⟨w, rest, i, -, -, hstep⟩ | ⟨w, rest, e, -, -, hstep⟩ | ⟨l, w, rest, -, -, hstep⟩ |
    ⟨l, rest, -, hstep⟩ | ⟨rest, -, hstep⟩ := step_cases s <;> rw [hstep] at h
  · cases h; exact hs
  · exact exec_planInvariant h (hq rest)
  · cases h; exact planInvariant_setStatus (hq rest)
  · cases h; exact (hostWrite_keepsPlans _ l w).planInvariant (hq rest)
  · cases h; exact KeepsPlans.planInvariant (.refl (s.setHostIn rest)) (hq rest)
  · cases h; exact planInvariant_of_plans_eq rfl

/-- Settles O53: `TWID` stores what R28 asks for (`planOk_storePlan`); other steps keep or clear the plans. -/
theorem stepKeepsThePlanInvariant : Obligations.StepKeepsThePlanInvariant :=
  fun _ _ _ hs hstep => step_planInvariant hstep hs

end Sys2Proof.Machine
end

section
/-! PROOFS. O13, O16, O54: what a command leaves in `STATUS` and `RES` (10_state.md R22, R25; 60_exceptions.md R171). No
check and no computation of a command raises `IllegalCommand`, and the three scalar results stand in `[0, MOD_MAX]`. -/

namespace Sys2Proof.Machine

/-! ### No command raises `IllegalCommand` -/

/-- A check or a computation of a command: it may raise an error, but not `IllegalCommand` (R74, R171). -/
def NeverIllegal {α : Type} (r : Except Err α) : Prop := ∀ e, r = .error e → e ≠ .illegalCommand

theorem NeverIllegal.ok {α : Type} (a : α) : NeverIllegal (.ok a : Except Err α) := fun _ h => nomatch h

theorem NeverIllegal.error {α : Type} {e : Err} (he : e ≠ .illegalCommand) : NeverIllegal (.error e : Except Err α) :=
  fun _ h => Except.error.inj h ▸ he

/-- An error passed on by a later computation. -/
theorem NeverIllegal.passed {α β : Type} {r : Except Err α} {e : Err} (hr : NeverIllegal r) (h : r = .error e) :
    NeverIllegal (.error e : Except Err β) := .error (hr e h)

theorem NeverIllegal.ite {α : Type} {c : Prop} [Decidable c] {r₁ r₂ : Except Err α} (h₁ : NeverIllegal r₁)
    (h₂ : NeverIllegal r₂) : NeverIllegal (if c then r₁ else r₂) := by
  split_ifs
  · exact h₁
  · exact h₂

theorem modInv_neverIllegal (a m : Int) : NeverIllegal (modInv a m) :=
  .ite (.ok _) (.error (by decide))

theorem modPow_neverIllegal (a b m : Int) : NeverIllegal (modPow a b m) := by
  refine .ite ?_ (.ok _)
  split
  · exact (modInv_neverIllegal a m).passed ‹_›
  · exact .ok _

theorem rootScan_neverIllegal (n phi : Nat) (qs : List Nat) : ∀ k a : Nat, NeverIllegal (rootScan n phi qs k a)
  | 0, _ => .error (by decide)
  | k + 1, a => .ite (.ok _) (rootScan_neverIllegal n phi qs k (a + 1))

theorem primitiveRoot_neverIllegal (limit n : Nat) : NeverIllegal (primitiveRoot limit n) :=
  rootScan_neverIllegal _ _ _ _ _

theorem modulusScan_neverIllegal (limit n : Nat) : ∀ fuel k : Nat, NeverIllegal (modulusScan limit n fuel k)
  | 0, _ => .error (by decide)
  | fuel + 1, k => .ite (.error (by decide)) (.ite (.ok _) (modulusScan_neverIllegal limit n fuel (k + 1)))

theorem chooseModulus_neverIllegal (c : Params) (n psel : Int) : NeverIllegal (chooseModulus c n psel) :=
  .ite (modulusScan_neverIllegal _ _ _ _) (.ite (.ok _) (.error (by decide)))

theorem planFor_neverIllegal (c : Params) (n p : Int) : NeverIllegal (planFor c n p) := by
  unfold planFor
  split
  · exact (primitiveRoot_neverIllegal _ _).passed ‹_›
  · dsimp only
    split
    · exact (modInv_neverIllegal _ _).passed ‹_›
    · split
      · exact (modInv_neverIllegal _ _).passed ‹_›
      · exact .ok _

theorem planInit_neverIllegal (c : Params) (n psel : Int) : NeverIllegal (planInit c n psel) := by
  refine .ite (.ite (.error (by decide)) ?_) (.error (by decide))
  split
  · exact (chooseModulus_neverIllegal c n psel).passed ‹_›
  · exact planFor_neverIllegal _ _ _

theorem crtCoeffs_neverIllegal (mprod : Int) (ps : List Int) : NeverIllegal (crtCoeffs mprod ps) := by
  induction ps with
  | nil => exact .ok _
  | cons p ps ih =>
    unfold crtCoeffs
    split
    · exact (modInv_neverIllegal _ _).passed ‹_›
    · split
      · exact ih.passed ‹_›
      · exact .ok _

theorem scalarCommand_neverIllegal (s : State) {value : Int → Except Err Int} (h : ∀ m, NeverIllegal (value m)) :
    ∃ r, scalarCommand s value = finish s r ∧ NeverIllegal r := by
  refine ⟨_, rfl, .ite ?_ (.error (by decide))⟩
  split
  · exact (h _).passed ‹_›
  · exact .ok _

theorem exec_neverIllegal (i : Instr) (s : State) : ∃ r, exec i s = .next (finish s r) ∧ NeverIllegal r := by
  have hselect : NeverIllegal (.error .badSelect : Except Err State) := .error (by decide)
  have hsize : NeverIllegal (.error .invalidSize : Except Err State) := .error (by decide)
  cases i with
  | modmul =>
    obtain ⟨r, h, hr⟩ := scalarCommand_neverIllegal s fun m => .ok (modMul s.a s.b m)
    exact ⟨r, congrArg _ h, hr⟩
  | modpow =>
    obtain ⟨r, h, hr⟩ := scalarCommand_neverIllegal s (modPow_neverIllegal s.a s.b)
    exact ⟨r, congrArg _ h, hr⟩
  | proot =>
    obtain ⟨r, h, hr⟩ := scalarCommand_neverIllegal s fun m => primitiveRoot_neverIllegal s.params.primeLimit m.toNat
    exact ⟨r, congrArg _ h, hr⟩
  | twid slot =>
    refine ⟨_, rfl, .ite ?_ hselect⟩
    split
    · exact (planInit_neverIllegal _ _ _).passed ‹_›
    · exact .ok _
  | bitrev dst => exact ⟨_, rfl, .ite (.ite (.ok _) hsize) hselect⟩
  | nttf slot src dst | ntti slot src dst => exact ⟨_, rfl, .ite (.ite (.ok _) hselect) hselect⟩
  | crt cnt src =>
    refine ⟨_, rfl, .ite (.ite (.ite ?_ hsize) hselect) hselect⟩
    split
    · exact (crtCoeffs_neverIllegal _ _).passed ‹_›
    · exact .ok _

/-! ### `STATUS` -/

theorem Err.code_le_six {e : Err} (h : e ≠ .illegalCommand) : e.code ≤ 6 := by
  cases e
  case illegalCommand => exact absurd rfl h
  all_goals decide

/-- A command ends with one of the codes 0 to 6 (R171). -/
theorem exec_status {i : Instr} {s t : State} (h : exec i s = .next t) : ∃ c, c ≤ 6 ∧ t.status = statusWord c := by
  obtain ⟨r, hexec, hr⟩ := exec_neverIllegal i s
  obtain rfl : finish s r = t := Host.Outcome.next.inj (hexec.symm.trans h)
  cases r with
  | error e => exact ⟨e.code, Err.code_le_six (hr e rfl), rfl⟩
  | ok u => exact ⟨0, by omega, rfl⟩

/-- Settles O13: a legal word is a command, which ends with a code below 7 (`exec_status`), and an illegal one ends with
`IllegalCommand`. -/
theorem everyCommandWritesStatus : Obligations.EveryCommandWritesStatus := by
  intro s rest w hq
  cases hd : decode w with
  | ok i =>
    obtain ⟨r, hexec, -⟩ := exec_writes i (s.setHostIn rest)
    obtain ⟨c, hc, hstatus⟩ := exec_status hexec
    refine ⟨_, c, (step_of_command hq hd).trans hexec, by omega, hstatus, by omega, ?_⟩
    rintro ⟨e, he⟩
    cases he
  | error e =>
    refine ⟨raise .illegalCommand (s.setHostIn rest), 7, ?_, le_rfl, rfl, fun _ => ⟨e, rfl⟩, fun _ => rfl⟩
    simp [step, nextHostStep, hq, hostStep, execute, hd]

/-! ### `RES` -/

/-- Everything a scalar command can do (R98(b), R172). -/
theorem scalarCommand_cases (s : State) (value : Int → Except Err Int) :
    (∃ e, scalarCommand s value = raise e s) ∨
      ∃ v, 1 ≤ s.m ∧ s.m ≤ modMax ∧ value s.m = .ok v ∧
        scalarCommand s value = (s.setRes (wrap64 v)).setStatus (statusWord 0) := by
  unfold scalarCommand
  split_ifs with hm
  · have hrange : 1 ≤ s.m ∧ s.m ≤ modMax := by simpa [modulusOk] using hm
    cases hv : value s.m with
    | error e => exact .inl ⟨e, rfl⟩
    | ok v => exact .inr ⟨v, hrange.1, hrange.2, rfl, rfl⟩
  · exact .inl ⟨_, rfl⟩

/-- A command that raised an error reports it (R171). -/
theorem errField_raise_ne_zero (e : Err) (s : State) : errField (raise e s).status ≠ 0 := by
  have hcode := e.code_range
  have hfield := (statusWord_fields (show e.code < 16 by omega)).2
  change errField (statusWord e.code) ≠ 0
  omega

theorem scalarCommand_legalResult {s : State} {value : Int → Except Err Int}
    (hvalue : ∀ m v, 1 ≤ m → value m = .ok v → 0 ≤ v ∧ v ≤ m) (herr : errField (scalarCommand s value).status = 0) :
    legalResult (scalarCommand s value).res := by
  obtain ⟨e, h⟩ | ⟨v, hlow, hhigh, hv, h⟩ := scalarCommand_cases s value
  · exact absurd (h ▸ herr) (errField_raise_ne_zero e s)
  · obtain ⟨hv0, hvm⟩ := hvalue s.m v hlow hv
    have hsint : sint (wrap64 v) = v := sint_wrap64_of_le_modMax hv0 (hvm.trans hhigh)
    rw [h]
    exact ⟨hv0.trans_eq hsint.symm, hsint.trans_le (hvm.trans hhigh)⟩

theorem modMul_range (a b : Int) {m : Int} (hm : 1 ≤ m) : 0 ≤ modMul a b m ∧ modMul a b m ≤ m :=
  ⟨Int.emod_nonneg _ (by omega), (Int.emod_lt_of_pos _ (by omega)).le⟩

theorem powMod_range (a : Int) (e : Nat) {m : Int} (hm : 1 ≤ m) : 0 ≤ powMod a e m ∧ powMod a e m ≤ m := by
  rw [powMod_eq]
  exact ⟨Int.emod_nonneg _ (by omega), (Int.emod_lt_of_pos _ (by omega)).le⟩

theorem modPow_range {a b m v : Int} (hm : 1 ≤ m) (h : modPow a b m = .ok v) : 0 ≤ v ∧ v ≤ m := by
  unfold modPow at h
  split_ifs at h
  · split at h <;> cases h
    exact powMod_range _ _ hm
  · cases h
    exact powMod_range _ _ hm

/-- The three commands that write `RES` (R22). -/
def IsScalar (i : Instr) : Prop := i = .modmul ∨ i = .modpow ∨ i = .proot

theorem exec_legalResult {i : Instr} {s t : State} (hi : IsScalar i) (h : exec i s = .next t)
    (herr : errField t.status = 0) : legalResult t.res := by
  obtain rfl | rfl | rfl := hi <;> cases h
  · refine scalarCommand_legalResult (fun m v hm hv => ?_) herr
    cases hv
    exact modMul_range _ _ hm
  · exact scalarCommand_legalResult (fun m v hm hv => modPow_range hm hv) herr
  · refine scalarCommand_legalResult (fun m v hm hv => ?_) herr
    have hrange := primitiveRoot_range hv
    omega

theorem CommandWrites.isScalar_of_res_ne {i : Instr} {s t : State} (h : CommandWrites i s t) (hne : t.res ≠ s.res) :
    IsScalar i := by
  cases i with
  | modmul => exact .inl rfl
  | modpow => exact .inr (.inl rfl)
  | proot => exact .inr (.inr rfl)
  | twid slot => obtain ⟨-, d, -, rfl⟩ := h; exact absurd rfl hne
  | bitrev dst => obtain ⟨-, ws, -, rfl⟩ := h; exact absurd rfl hne
  | nttf slot src dst | ntti slot src dst => obtain ⟨-, ws, -, rfl⟩ := h; exact absurd rfl hne
  | crt cnt src => obtain ⟨coeffs, rfl⟩ := h; exact absurd rfl hne

theorem exec_isScalar_of_res_ne {i : Instr} {s t : State} (h : exec i s = .next t) (hne : t.res ≠ s.res) :
    IsScalar i ∧ errField t.status = 0 := by
  obtain ⟨e, rfl⟩ | ⟨u, hu, rfl⟩ := exec_cases h
  · exact absurd rfl hne
  · exact ⟨hu.isScalar_of_res_ne hne, errField_statusWord_zero⟩

/-- Settles O16: only the writes of the scalar commands reach `RES`, and what they write is in range. -/
theorem resultRegisterWrittenOnlyOnSuccess : Obligations.ResultRegisterWrittenOnlyOnSuccess :=
  fun _ _ _ h => ⟨exec_isScalar_of_res_ne h, fun hi herr => exec_legalResult hi h herr⟩

/-! ### Every step -/

/-- A command leaves `RES` as it was or in range. -/
theorem exec_res {i : Instr} {s t : State} (h : exec i s = .next t) : t.res = s.res ∨ legalResult t.res := by
  by_cases hne : t.res = s.res
  · exact .inl hne
  · obtain ⟨hi, herr⟩ := exec_isScalar_of_res_ne h hne
    exact .inr (exec_legalResult hi h herr)

/-- What a step can do to `STATUS` and `RES`: nothing, what a command does, or what a reset does. -/
theorem step_status_res {s t : State} (h : step s = .next t) :
    (t.status = s.status ∧ t.res = s.res) ∨
      (∃ c, c ≤ 7 ∧ t.status = statusWord c ∧ (t.res = s.res ∨ legalResult t.res)) ∨
      ∃ rest, s.hostIn = .reset :: rest ∧ t.status = 0 ∧ t.res = 0 := by
  obtain ⟨-, hstep⟩ | ⟨w, rest, i, -, -, hstep⟩ | ⟨w, rest, e, -, -, hstep⟩ | ⟨l, w, rest, -, -, hstep⟩ |
    ⟨l, rest, -, hstep⟩ | ⟨rest, hq, hstep⟩ := step_cases s <;> rw [hstep] at h
  · cases h; exact .inl ⟨rfl, rfl⟩
  · obtain ⟨c, hc, hstatus⟩ := exec_status h
    have hres := exec_res h
    exact .inr (.inl ⟨c, by omega, hstatus, hres⟩)
  · cases h; exact .inr (.inl ⟨7, le_rfl, rfl, .inl rfl⟩)
  · cases h
    obtain ⟨-, -, hstatus, hres, -⟩ := hostWrite_frame (s.setHostIn rest) l w
    exact .inl ⟨hstatus, hres⟩
  · cases h; exact .inl ⟨rfl, rfl⟩
  · cases h; exact .inr (.inr ⟨rest, hq, rfl, rfl⟩)

theorem legalResult_zero : legalResult 0 := ⟨by decide, by decide⟩

/-- Settles O54, by what a step can do to `STATUS` and `RES` (`step_status_res`). -/
theorem stepKeepsStatusAndResultLegal : Obligations.StepKeepsStatusAndResultLegal := by
  intro s t hlegal hresult hstep
  obtain ⟨hstatus, hres⟩ | ⟨c, hc, hstatus, hres⟩ | ⟨rest, hq, hstatus, hres⟩ := step_status_res hstep
  · rw [hstatus, hres]
    exact ⟨hlegal, hresult, fun _ hdone => hdone⟩
  · refine ⟨.inr ⟨c, hc, hstatus⟩, hres.elim (fun h => h ▸ hresult) id, fun _ _ => ?_⟩
    rw [hstatus]
    exact (statusWord_fields (by omega)).1
  · rw [hstatus, hres]
    exact ⟨.inl rfl, legalResult_zero, fun hnoReset => absurd hq (hnoReset rest)⟩

end Sys2Proof.Machine
end

section
/-! PROOFS. O12, O56: the state after reset (10_state.md R34, 70_reset_and_hazards.md R190). -/

namespace Sys2Proof.Machine

theorem reset_plan (slot : Nat) : State.reset.plan slot = PlanSlot.reset := slotAt_replicate_reset _ _

/-- Every field of a slot as reset leaves it reads 0 (R34). -/
theorem slotRead_reset (f : Nat) : slotRead PlanSlot.reset f = 0 := by
  unfold slotRead
  split <;> rfl

theorem regRead_reset (r : Nat) : regRead State.reset r = 0 := by
  unfold regRead
  split <;> rfl

/-- Settles O12: each register and each field of each slot is 0, and no word is written. -/
theorem registersAndSlotsReadZeroAfterReset : Obligations.RegistersAndSlotsReadZeroAfterReset := by
  refine ⟨regRead_reset, fun slot f => ?_, fun _ => rfl⟩
  simp only [hostRead, reset_plan, slotRead_reset, ite_self]

/-- Settles O56: the parameters of the test vectors meet R5, nothing is written and no slot holds a plan. -/
theorem resetMeetsTheInvariants : Obligations.ResetMeetsTheInvariants :=
  ⟨by decide +kernel, rfl, planInvariant_of_plans_eq rfl, .inl rfl, legalResult_zero, rfl⟩

end Sys2Proof.Machine
end

section
/-! PROOFS. O52: every step keeps the canonical form of the memory (assumption 1). What is stored is stored by `put`,
word by word, and `put` keeps the form; a reset leaves the empty memory. -/

namespace Sys2Proof.Machine

/-- The stores of a command keep the canonical form. -/
theorem CommandWrites.mem_wf {i : Instr} {s t : State} (h : CommandWrites i s t) (hs : Memory.wf s.mem = true) :
    Memory.wf t.mem = true := by
  cases i with
  | modmul | modpow | proot => obtain ⟨v, rfl⟩ := h; exact hs
  | twid slot => obtain ⟨-, d, -, rfl⟩ := h; exact storePlan_wf s slot _ d hs
  | bitrev dst => obtain ⟨-, ws, -, rfl⟩ := h; exact storeSeq_wf s dst ws hs
  | nttf slot src dst | ntti slot src dst => obtain ⟨-, ws, -, rfl⟩ := h; exact storeSeq_wf s dst ws hs
  | crt cnt src => obtain ⟨coeffs, rfl⟩ := h; exact storeCrt_wf s cnt src coeffs hs

theorem exec_mem_wf {i : Instr} {s t : State} (h : exec i s = .next t) (hs : Memory.wf s.mem = true) :
    Memory.wf t.mem = true := by
  obtain ⟨e, rfl⟩ | ⟨u, hu, rfl⟩ := exec_cases h
  · exact hs
  · exact hu.mem_wf hs

theorem hostWrite_mem_wf (s : State) (l : Loc) (w : Word) (hs : Memory.wf s.mem = true) :
    Memory.wf (hostWrite s l w).mem = true := by
  obtain ⟨-, h⟩ | ⟨-, h⟩ | ⟨-, h⟩ | ⟨a, -, -, -, h⟩ | h := hostWrite_cases s l w <;> rw [h]
  case inr.inr.inr.inl => exact Memory.put_wf s.mem a w hs
  all_goals exact hs

/-- Settles O52: a command's stores (`exec_mem_wf`) and a plain host write (`hostWrite_mem_wf`) keep the form, a reset
empties the memory, and no other step reaches it. -/
theorem stepKeepsMemoryCanonical : Obligations.StepKeepsMemoryCanonical := by
  intro s t hs h
  obtain ⟨-, hstep⟩ | ⟨w, rest, i, -, -, hstep⟩ | ⟨w, rest, e, -, -, hstep⟩ | ⟨l, w, rest, -, -, hstep⟩ |
    ⟨l, rest, -, hstep⟩ | ⟨rest, -, hstep⟩ := step_cases s <;> rw [hstep] at h
  · cases h; exact hs
  · exact exec_mem_wf h hs
  · cases h; exact hs
  · cases h; exact hostWrite_mem_wf (s.setHostIn rest) l w hs
  · cases h; exact hs
  · cases h; rfl

end Sys2Proof.Machine
end

section
/-! PROOFS. O6, O8, O9, O10: the host's steps (20_memory.md R53 to R57). A host write is told by what it changes of
what the host can read, a host read by its reply. -/

namespace Sys2Proof.Machine

/-! ### Every step -/

/-- Settles O6: the step is `exec` of the decoded command (`step_of_command`). -/
theorem stepRunsTheDecodedCommand : Obligations.StepRunsTheDecodedCommand :=
  fun _ _ _ _ hq hd => step_of_command hq hd

/-- Settles O8: a command ends through `finish`, and every other kind of step names the state it answers. -/
theorem everyStepAnswersANextState : Obligations.EveryStepAnswersANextState := by
  refine ⟨fun s => ?_, fun s hq => by simp only [step, nextHostStep, hq]⟩
  obtain ⟨-, h⟩ | ⟨w, rest, i, -, -, h⟩ | ⟨w, rest, e, -, -, h⟩ | ⟨l, w, rest, -, -, h⟩ | ⟨l, rest, -, h⟩ |
    ⟨rest, -, h⟩ := step_cases s
  case inr.inl =>
    obtain ⟨r, hexec, -⟩ := exec_writes i (s.setHostIn rest)
    exact ⟨_, h.trans hexec⟩
  all_goals exact ⟨_, h⟩

/-! ### The ranges of the word spaces -/

section
variable (c : Params) (i j : Nat)

@[simp] theorem addrInRange_tw : addrInRange c ⟨.tw, i, j⟩ = true ↔ i < c.nplans ∧ j < c.nmax := by
  simp [addrInRange]

@[simp] theorem addrInRange_itw : addrInRange c ⟨.itw, i, j⟩ = true ↔ i < c.nplans ∧ j < c.nmax := by
  simp [addrInRange]

@[simp] theorem addrInRange_seq : addrInRange c ⟨.seq, i, j⟩ = true ↔ i < c.nbuf ∧ j < c.nmax := by
  simp [addrInRange]

@[simp] theorem addrInRange_cbuf : addrInRange c ⟨.cbuf, i, j⟩ = true ↔ i < c.nmax ∧ j < c.nplans := by
  simp [addrInRange]

end

/-! ### What the host reads -/

theorem hostRead_word (s : State) (a : Addr) :
    hostRead s (.word a) = if addrInRange s.params a = true then s.word a else 0 := rfl

theorem hostRead_plan (s : State) (slot f : Nat) :
    hostRead s (.plan slot f) = if slot < s.params.nplans then slotRead (s.plan slot) f else 0 := rfl

theorem regRead_of_five_lt (s : State) {r : Nat} (h : 5 < r) : regRead s r = 0 := by
  obtain ⟨k, rfl⟩ : ∃ k, r = k + 6 := ⟨r - 6, by omega⟩
  rfl

theorem slotRead_of_three_lt (v : PlanSlot) {f : Nat} (h : 3 < f) : slotRead v f = 0 := by
  obtain ⟨k, rfl⟩ : ∃ k, f = k + 4 := ⟨f - 4, by omega⟩
  rfl

/-- The host's queue is nothing that the host reads. -/
theorem hostRead_setHostIn (s : State) (rest : List HostStep) (l : Loc) :
    hostRead (s.setHostIn rest) l = hostRead s l := rfl

theorem hostRead_setOpa (s : State) (w : Word) (l : Loc) :
    hostRead (s.setOpa w) l = if l = .reg 2 then w else hostRead s l := by
  cases l with
  | reg r => simp only [hostRead, regRead]; split <;> simp_all
  | plan slot f | word a => rfl

theorem hostRead_setOpb (s : State) (w : Word) (l : Loc) :
    hostRead (s.setOpb w) l = if l = .reg 3 then w else hostRead s l := by
  cases l with
  | reg r => simp only [hostRead, regRead]; split <;> simp_all
  | plan slot f | word a => rfl

theorem hostRead_setOpm (s : State) (w : Word) (l : Loc) :
    hostRead (s.setOpm w) l = if l = .reg 4 then w else hostRead s l := by
  cases l with
  | reg r => simp only [hostRead, regRead]; split <;> simp_all
  | plan slot f | word a => rfl

theorem hostRead_setMem_put {s : State} {a : Addr} (ha : addrInRange s.params a = true) (w : Word) (l : Loc) :
    hostRead (s.setMem (Memory.put s.mem a w)) l = if l = .word a then w else hostRead s l := by
  cases l with
  | reg r | plan slot f => rfl
  | word b =>
    by_cases hb : b = a
    · subst hb
      simp [hostRead_word, ha]
    · simp [hostRead_word, Memory.get?_put_other _ hb, hb, State.word]

/-! ### Host writes -/

/-- The locations, but `CMD`, that a host write reaches (R53). -/
def HostWritable (c : Params) (l : Loc) : Prop :=
  l = .reg 2 ∨ l = .reg 3 ∨ l = .reg 4 ∨ ∃ b i, l = .word ⟨.seq, b, i⟩ ∧ b < c.nbuf ∧ i < c.nmax

/-- A host write anywhere else is ignored (R55). -/
theorem hostWrite_of_not_writable (s : State) {l : Loc} {w : Word} (h : ¬ HostWritable s.params l) :
    hostWrite s l w = s := by
  obtain ⟨hl, -⟩ | ⟨hl, -⟩ | ⟨hl, -⟩ | ⟨⟨sp, b, i⟩, hl, rfl, hrange, -⟩ | heq := hostWrite_cases s l w
  · exact absurd (.inl hl) h
  · exact absurd (.inr (.inl hl)) h
  · exact absurd (.inr (.inr (.inl hl))) h
  · exact absurd (.inr (.inr (.inr ⟨b, i, hl, (addrInRange_seq _ b i).1 hrange⟩))) h
  · exact heq

/-- A host write is read back where the host may write, and nowhere else does a read notice it (R53). -/
theorem hostRead_hostWrite_of_writable (s : State) {l : Loc} (h : HostWritable s.params l) (w : Word) (l' : Loc) :
    hostRead (hostWrite s l w) l' = if l' = l then w else hostRead s l' := by
  obtain rfl | rfl | rfl | ⟨b, i, rfl, hrange⟩ := h
  · exact hostRead_setOpa s w l'
  · exact hostRead_setOpb s w l'
  · exact hostRead_setOpm s w l'
  · have ha : addrInRange s.params ⟨.seq, b, i⟩ = true := (addrInRange_seq _ b i).2 hrange
    rw [show hostWrite s (.word ⟨.seq, b, i⟩) w = s.setMem (Memory.put s.mem ⟨.seq, b, i⟩ w) from if_pos ⟨rfl, ha⟩]
    exact hostRead_setMem_put ha w l'

/-- What a plain host write leaves of the model's own fields. -/
theorem hostWrite_bookkeeping (s : State) (l : Loc) (w : Word) :
    (hostWrite s l w).hostIn = s.hostIn ∧ (hostWrite s l w).replies = s.replies ∧
      (hostWrite s l w).params = s.params ∧ (hostWrite s l w).epoch = s.epoch := by
  obtain ⟨-, h⟩ | ⟨-, h⟩ | ⟨-, h⟩ | ⟨a, -, -, -, h⟩ | h := hostWrite_cases s l w <;> rw [h] <;>
    exact ⟨rfl, rfl, rfl, rfl⟩

/-- Settles O9: a write is read back where the host may write (`hostRead_hostWrite_of_writable`) and ignored elsewhere
(`hostWrite_of_not_writable`). -/
theorem hostWriteIsReadBack : Obligations.HostWriteIsReadBack := by
  intro s rest l w hq hl
  obtain ⟨hqueue, hreplies, hparams, hepoch⟩ := hostWrite_bookkeeping (s.setHostIn rest) l w
  refine ⟨_, step_of_hostWrite hq hl, hqueue, hreplies, hparams, hepoch, fun l' => ⟨?_, fun hne => ?_⟩⟩
  · rintro ⟨rfl, hwritable⟩
    exact (hostRead_hostWrite_of_writable (s.setHostIn rest) hwritable w l').trans (if_pos rfl)
  · by_cases hwritable : HostWritable s.params l
    · have hne' : l' ≠ l := fun h => hne ⟨h, hwritable⟩
      rw [hostRead_hostWrite_of_writable (s.setHostIn rest) hwritable, if_neg hne', hostRead_setHostIn]
    · rw [hostWrite_of_not_writable (s.setHostIn rest) hwritable, hostRead_setHostIn]

/-! ### Host reads -/

theorem step_of_hostRead {s : State} {rest : List HostStep} {l : Loc} (hq : s.hostIn = .read l :: rest) :
    step s = .next ((s.setHostIn rest).pushReply (hostRead s l)) := by
  simp only [step, nextHostStep, hq, hostStep, hostRead_setHostIn]

/-- A word whose range is `P` reads as stored in range and as 0 out of it (R54, R55). -/
theorem hostRead_word_of_range {s : State} {a : Addr} {P : Prop} (h : addrInRange s.params a = true ↔ P) :
    (P → hostRead s (.word a) = s.word a) ∧ (¬ P → hostRead s (.word a) = 0) :=
  ⟨fun hin => if_pos (h.2 hin), fun hout => if_neg fun ha => hout (h.1 ha)⟩

/-- An absent slot and an absent field read 0 (R55). -/
theorem hostRead_plan_absent {s : State} {slot f : Nat} (h : s.params.nplans ≤ slot ∨ 3 < f) :
    hostRead s (.plan slot f) = 0 := by
  rw [hostRead_plan]
  split_ifs with hslot
  · exact slotRead_of_three_lt _ (h.resolve_left (by omega))
  · rfl

theorem hostRead_plan_present {s : State} {slot : Nat} (h : slot < s.params.nplans) (f : Nat) :
    hostRead s (.plan slot f) = slotRead (s.plan slot) f := if_pos h

/-- Settles O10: the reply is `hostRead` of the location (`step_of_hostRead`), kind by kind of location. -/
theorem hostReadReturnsTheWord : Obligations.HostReadReturnsTheWord := by
  intro s rest l hq
  refine ⟨hostRead s l, step_of_hostRead hq, ?cmd, ?status, ?opa, ?opb, ?opm, ?res, ?regAbsent, ?planAbsent, ?plan,
    ?tables, ?seq, ?cbuf⟩
  case cmd | status | opa | opb | opm | res => rintro rfl; rfl
  case regAbsent => rintro r hr rfl; exact regRead_of_five_lt s hr
  case planAbsent => rintro slot f rfl habsent; exact hostRead_plan_absent habsent
  case plan =>
    intro slot hslot
    refine ⟨?_, ?_, ?_, ?_⟩ <;> rintro rfl <;> exact hostRead_plan_present hslot _
  case tables =>
    rintro slot i (rfl | rfl)
    · obtain ⟨hin, hout⟩ := hostRead_word_of_range (addrInRange_tw s.params slot i)
      exact ⟨fun h a ha => by cases ha; exact hin h, fun h => hout (by omega)⟩
    · obtain ⟨hin, hout⟩ := hostRead_word_of_range (addrInRange_itw s.params slot i)
      exact ⟨fun h a ha => by cases ha; exact hin h, fun h => hout (by omega)⟩
  case seq =>
    rintro b i rfl
    obtain ⟨hin, hout⟩ := hostRead_word_of_range (addrInRange_seq s.params b i)
    exact ⟨hin, fun h => hout (by omega)⟩
  case cbuf =>
    rintro pos k rfl
    obtain ⟨hin, hout⟩ := hostRead_word_of_range (addrInRange_cbuf s.params pos k)
    exact ⟨hin, fun h => hout (by omega)⟩

end Sys2Proof.Machine
end

section
/-! PROOFS. O1 to O5, O7: the command word (30_encoding.md R71 to R77). A word is its five fields; a candidate of a word
matches its row exactly when its own word is that word; so decoding finds the one candidate that encodes to the word. -/

namespace Sys2Proof

/-! ### The fields of a word -/

theorem bits_and (v w : Word) (hi lo : Nat) : bits (v &&& w) hi lo = bits v hi lo &&& bits w hi lo := by
  simp only [bits, uint, BitVec.toNat_and, Nat.and_div_two_pow, Nat.and_mod_two_pow]

theorem fields_lt (w : Word) : bits w 15 8 < 256 ∧ bits w 23 16 < 256 ∧ bits w 31 24 < 256 :=
  ⟨Nat.mod_lt _ (by decide), Nat.mod_lt _ (by decide), Nat.mod_lt _ (by decide)⟩

/-- A word is its five fields (R71). -/
theorem eq_iff_fields {v w : Word} : v = w ↔
    bits v 7 0 = bits w 7 0 ∧ bits v 15 8 = bits w 15 8 ∧ bits v 23 16 = bits w 23 16 ∧
      bits v 31 24 = bits w 31 24 ∧ bits v 63 32 = bits w 63 32 := by
  refine ⟨by rintro rfl; exact ⟨rfl, rfl, rfl, rfl, rfl⟩, fun h => BitVec.eq_of_toNat_eq ?_⟩
  simp only [bits, uint] at h
  omega

theorem formatC_fields {opc plan src dst : Nat} (ho : opc < 256) (hp : plan < 256) (hs : src < 256) (hd : dst < 256) :
    bits (formatC opc plan src dst) 7 0 = opc ∧ bits (formatC opc plan src dst) 15 8 = plan ∧
      bits (formatC opc plan src dst) 23 16 = src ∧ bits (formatC opc plan src dst) 31 24 = dst ∧
      bits (formatC opc plan src dst) 63 32 = 0 := by
  simp only [bits, uint, formatC, BitVec.toNat_ofNat]
  omega

theorem formatC_eq_iff {opc plan src dst : Nat} {w : Word} (ho : opc < 256) (hp : plan < 256) (hs : src < 256)
    (hd : dst < 256) : formatC opc plan src dst = w ↔
      bits w 7 0 = opc ∧ bits w 15 8 = plan ∧ bits w 23 16 = src ∧ bits w 31 24 = dst ∧ bits w 63 32 = 0 := by
  obtain ⟨h0, h8, h16, h24, h32⟩ := formatC_fields ho hp hs hd
  rw [eq_iff_fields, h0, h8, h16, h24, h32]
  omega

/-! ### The candidates of a word -/

theorem candidates_wf {w : Word} {i : Instr} (hi : i ∈ candidates w) : i.wf = true := by
  simp only [candidates, List.mem_cons, List.not_mem_nil, or_false] at hi
  rcases hi with rfl | rfl | rfl | rfl | rfl | rfl | rfl | rfl <;> simp [Instr.wf, fieldOk, fields_lt]

theorem mem_candidates_encode {i : Instr} (h : i.wf = true) : i ∈ candidates (encode i) := by
  cases i <;> simp_all [candidates, encode, Instr.wf, fieldOk, formatC_fields]

theorem bits_ofNat (n hi lo : Nat) : bits (BitVec.ofNat 64 n) hi lo = n % 2 ^ 64 / 2 ^ lo % 2 ^ (hi + 1 - lo) := by
  simp only [bits, uint, BitVec.toNat_ofNat]

/-- A mask that is all ones in a field keeps the field. -/
theorem fields_and_ones (w : Word) :
    bits w 7 0 &&& 255 = bits w 7 0 ∧ bits w 15 8 &&& 255 = bits w 15 8 ∧ bits w 23 16 &&& 255 = bits w 23 16 ∧
      bits w 31 24 &&& 255 = bits w 31 24 ∧ bits w 63 32 &&& 4294967295 = bits w 63 32 := by
  have keep : ∀ hi lo, bits w hi lo &&& (2 ^ (hi + 1 - lo) - 1) = bits w hi lo := fun _ _ =>
    Nat.and_two_pow_sub_one_of_lt_two_pow (Nat.mod_lt _ (Nat.two_pow_pos _))
  exact ⟨keep 7 0, keep 15 8, keep 23 16, keep 31 24, keep 63 32⟩

/-- A candidate's row fixes the fields that the command does not use and leaves the others as they stand (R72, R73), so
a word matches the row exactly when it is the command's own word. -/
theorem row_match_iff {w : Word} {i : Instr} (hi : i ∈ candidates w) :
    w &&& i.row.mask = i.row.pattern ↔ encode i = w := by
  simp only [candidates, List.mem_cons, List.not_mem_nil, or_false] at hi
  rcases hi with rfl | rfl | rfl | rfl | rfl | rfl | rfl | rfl <;>
    simp [eq_iff_fields (v := w &&& _), bits_and, bits_ofNat, fields_and_ones, Instr.row, encode, formatC_eq_iff,
      fields_lt]

/-! ### Decoding -/

/-- Two candidates of a word with the same word are one: the eight opcodes differ (R72). -/
theorem candidates_encode_inj {w : Word} {i j : Instr} (hi : i ∈ candidates w) (hj : j ∈ candidates w)
    (h : encode i = encode j) : i = j := by
  have hopcodes : (candidates w).map (fun i => bits (encode i) 7 0) = [1, 2, 3, 4, 5, 6, 7, 8] := by
    simp [candidates, encode, formatC_fields, fields_lt]
  exact List.inj_on_of_nodup_map (by rw [hopcodes]; decide) hi hj (by rw [h])

/-- Decoding finds the candidate whose word the word is (R76). -/
theorem decode_eq_ok_iff {w : Word} {i : Instr} : decode w = .ok i ↔ i ∈ candidates w ∧ encode i = w := by
  unfold decode
  cases hfind : (candidates w).find? (fun j => w &&& j.row.mask == j.row.pattern) with
  | none =>
    have hnone := List.find?_eq_none.1 hfind
    refine ⟨fun h => (nomatch h), fun ⟨hi, he⟩ => absurd ?_ (hnone i hi)⟩
    exact beq_iff_eq.2 ((row_match_iff hi).2 he)
  | some j =>
    have hj := List.mem_of_find?_eq_some hfind
    have he := (row_match_iff hj).1 (by simpa using List.find?_some hfind)
    refine ⟨fun h => ?_, fun ⟨hi, he'⟩ => ?_⟩
    · cases h
      exact ⟨hj, he⟩
    · rw [candidates_encode_inj hi hj (he'.trans he.symm)]

theorem decode_encode {i : Instr} (h : i.wf = true) : decode (encode i) = .ok i :=
  decode_eq_ok_iff.2 ⟨mem_candidates_encode h, rfl⟩

/-- A word is a row's command exactly when it matches the row and the fields stand in it (R72, R73). -/
theorem decode_eq_ok_iff_row_match {w : Word} {i : Instr} :
    decode w = .ok i ↔ w &&& i.row.mask = i.row.pattern ∧ i ∈ candidates w := by
  rw [decode_eq_ok_iff, and_comm]
  exact and_congr_left fun hi => (row_match_iff hi).symm

theorem decode_error_iff {w : Word} : (∃ e, decode w = .error e) ↔ ∀ i ∈ candidates w, encode i ≠ w := by
  cases hd : decode w with
  | ok i =>
    obtain ⟨hi, he⟩ := decode_eq_ok_iff.1 hd
    exact ⟨fun ⟨_, h⟩ => (nomatch h), fun h => absurd he (h i hi)⟩
  | error e =>
    refine ⟨fun _ i hi he => ?_, fun _ => ⟨e, rfl⟩⟩
    cases hd.symm.trans (decode_eq_ok_iff.2 ⟨hi, he⟩)

/-- Settles O1: the candidates of a command's word hold the command (`mem_candidates_encode`), and decoding finds it. -/
theorem decodeOfEncodeIsTheCommand : Obligations.DecodeOfEncodeIsTheCommand := fun _ h => decode_encode h

/-- Settles O2: what decoding finds is a candidate of the word that encodes to it (`decode_eq_ok_iff`). -/
theorem encodeOfDecodeIsTheWord : Obligations.EncodeOfDecodeIsTheWord := fun _ _ h =>
  let ⟨hi, he⟩ := decode_eq_ok_iff.1 h
  ⟨he, candidates_wf hi⟩

/-- Settles O3: each row by `decode_eq_ok_iff_row_match`, being a candidate saying where its fields stand. -/
theorem commandExactlyWhenMaskMatches : Obligations.CommandExactlyWhenMaskMatches := by
  intro w
  refine ⟨?modmul, ?modpow, ?proot, fun slot => ?twid, fun dst => ?bitrev, fun slot src dst => ?nttf,
    fun slot src dst => ?ntti, fun cnt src => ?crt⟩
  all_goals
    rw [decode_eq_ok_iff_row_match]
    simp [candidates, Instr.row, bits, uint]

/-- Settles O5: each word is the encoding of its command. -/
theorem wordsOfTheSpecDecodeAsListed : Obligations.WordsOfTheSpecDecodeAsListed :=
  ⟨decode_encode (i := .modmul) rfl, decode_encode (i := .modpow) rfl, decode_encode (i := .proot) rfl,
    decode_encode (i := .twid 1) rfl, decode_encode (i := .bitrev 2) rfl, decode_encode (i := .nttf 0 0 1) rfl,
    decode_encode (i := .ntti 1 2 3) rfl, decode_encode (i := .crt 2 4) rfl⟩

/-! ### Illegal words -/

theorem unused_fields (w : Word) :
    (bits w 31 8 = 0 ↔ bits w 15 8 = 0 ∧ bits w 23 16 = 0 ∧ bits w 31 24 = 0) ∧
      (bits w 31 16 = 0 ↔ bits w 23 16 = 0 ∧ bits w 31 24 = 0) ∧
      (bits w 23 8 = 0 ↔ bits w 15 8 = 0 ∧ bits w 23 16 = 0) := by
  simp only [bits]
  omega

/-- Which words are illegal (R74). -/
theorem decode_error_iff_fields (w : Word) : (∃ e, decode w = .error e) ↔
    bits w 7 0 = 0 ∨ 9 ≤ bits w 7 0 ∨ bits w 63 32 ≠ 0 ∨
      ((bits w 7 0 = 1 ∨ bits w 7 0 = 2 ∨ bits w 7 0 = 3) ∧ bits w 31 8 ≠ 0) ∨
      (bits w 7 0 = 4 ∧ bits w 31 16 ≠ 0) ∨ (bits w 7 0 = 5 ∧ bits w 23 8 ≠ 0) ∨
      (bits w 7 0 = 8 ∧ bits w 31 24 ≠ 0) := by
  obtain ⟨h31_8, h31_16, h23_8⟩ := unused_fields w
  simp only [decode_error_iff, candidates, encode, List.forall_mem_cons, ne_eq, formatC_eq_iff, fields_lt,
    Nat.reduceLT, List.not_mem_nil, false_imp_iff, implies_true, and_true, true_and, h31_8, h31_16, h23_8]
  omega

end Sys2Proof

namespace Sys2Proof.Machine

theorem step_of_illegal {s : State} {rest : List HostStep} {w : Word}
    (hq : s.hostIn = .write (.reg 0) w :: rest) (hd : ∃ e, decode w = .error e) :
    step s = .next (raise .illegalCommand (s.setHostIn rest)) := by
  obtain ⟨e, he⟩ := hd
  simp only [step, nextHostStep, hq, hostStep, if_true, execute, he]

/-- Settles O4: R74's list is the words that no candidate encodes to, and the step only raises `IllegalCommand`. -/
theorem illegalWordsRaiseIllegalCommand : Obligations.IllegalWordsRaiseIllegalCommand :=
  fun w => ⟨decode_error_iff_fields w, fun _ _ hq hd => step_of_illegal hq hd⟩

/-- Settles O7: the queued word is the command's own, which decodes to the command. -/
theorem queuedCommandRunsNext : Obligations.QueuedCommandRunsNext := by
  intro s i h
  have hword : BitVec.ofNat 64 ((encode i).toNat % 2 ^ 64) = encode i := by
    rw [Nat.mod_eq_of_lt (encode i).isLt, BitVec.ofNat_toNat, BitVec.setWidth_eq]
  exact step_of_command rfl (hword.symm ▸ decode_encode h)

end Sys2Proof.Machine
end

section
/-! PROOFS. O50, O51: the pseudo-instructions `LDSEQ` and `PWMUL` (30_encoding.md R78). A host program is told by what
each of its host steps leaves; a loop over elements by the words that are written after `k` of them. -/

namespace Sys2Proof.Machine

/-! ### The host steps of a program -/

@[simp] theorem afterHostStep_read (s : State) (l : Loc) :
    afterHostStep s (.read l) = s.pushReply (hostRead s l) := rfl

@[simp] theorem afterHostStep_write_opa (s : State) (w : Word) : afterHostStep s (.write (.reg 2) w) = s.setOpa w := rfl

@[simp] theorem afterHostStep_write_opb (s : State) (w : Word) : afterHostStep s (.write (.reg 3) w) = s.setOpb w := rfl

@[simp] theorem afterHostStep_write_opm (s : State) (w : Word) : afterHostStep s (.write (.reg 4) w) = s.setOpm w := rfl

theorem afterHostStep_write_seq {s : State} {b i : Nat} (hb : b < s.params.nbuf) (hi : i < s.params.nmax) (w : Word) :
    afterHostStep s (.write (.word ⟨.seq, b, i⟩) w) = s.setMem (Memory.put s.mem ⟨.seq, b, i⟩ w) :=
  if_pos ⟨rfl, (addrInRange_seq s.params b i).2 ⟨hb, hi⟩⟩

theorem afterHostStep_command {s t : State} {i : Instr} (hi : i.wf = true) (h : exec i s = .next t) :
    afterHostStep s (.write (.reg 0) (encode i)) = t := by
  simp only [afterHostStep, hostStep, if_true, execute, decode_encode hi, h]

/-! ### `LDSEQ` -/

/-- The host's writes of one buffer, element by element, write a row of words. -/
theorem pseudoLdseqFrom_eq {b : Nat} : ∀ (vs : List Int) (i : Nat) (s : State), b < s.params.nbuf →
    i + vs.length ≤ s.params.nmax →
    pseudoLdseqFrom b i vs s = s.setMem (Memory.putRow s.mem .seq b i (vs.map wrap64)) := by
  intro vs
  induction vs with
  | nil => intro i s _ _; rfl
  | cons v vs ih =>
    intro i s hb hlen
    rw [List.length_cons] at hlen
    rw [pseudoLdseqFrom, afterHostStep_write_seq hb (by omega), ih]
    · rfl
    · exact hb
    · rw [State.setMem_params]
      omega

theorem pseudoLdseq_eq {s : State} {b : Nat} {vs : List Int} (hb : b < s.params.nbuf)
    (hlen : vs.length ≤ s.params.nmax) : pseudoLdseq b vs s = storeSeq s b (vs.map wrap64) :=
  pseudoLdseqFrom_eq vs 0 s hb (by omega)

/-- Settles O50: `LDSEQ` is a store into the buffer (`pseudoLdseq_eq`), which writes the words of the list. -/
theorem ldseqLoadsTheSequence : Obligations.LdseqLoadsTheSequence := by
  intro s b vs hb hlen
  rw [pseudoLdseq_eq hb hlen]
  refine ⟨fun i hi => ?_, fun a ha => ?_⟩
  · rw [State.seq_eq_word, storeSeq_word, if_pos (by simpa using hi)]
    simp [hi]
  · rw [storeSeq_word, if_neg (by simpa using ha)]

/-! ### `PWMUL` -/

/-- `MODMUL` under a modulus in its range (R110). -/
theorem exec_modmul {s : State} (low : 1 ≤ s.m) (high : s.m ≤ modMax) :
    exec .modmul s = .next ((s.setRes (wrap64 (modMul s.a s.b s.m))).setStatus (statusWord 0)) := by
  simp [exec, execModmul, scalarCommand, modulusOk, low, high]

/-- Writing one word changes that word only. -/
theorem State.setMem_put_word (s : State) (a : Addr) (w : Word) (b : Addr) :
    (s.setMem (Memory.put s.mem a w)).word b = if b = a then w else s.word b := by
  rw [State.setMem_word, Memory.get?_put]
  split_ifs <;> rfl

theorem hostRead_seq {s : State} {b i : Nat} (hb : b < s.params.nbuf) (hi : i < s.params.nmax) :
    hostRead s (.word ⟨.seq, b, i⟩) = s.seq b i := if_pos ((addrInRange_seq s.params b i).2 ⟨hb, hi⟩)

/-- The word that `PWMUL` writes to element `i` (R78). -/
def pwmulWord (s : State) (x y : Nat) (m : Int) (i : Nat) : Word :=
  wrap64 (modMul (sint (s.seq x i)) (sint (s.seq y i)) m)

theorem sint_pwmulWord {s : State} {x y i : Nat} {m : Int} (low : 1 ≤ m) (high : m ≤ modMax) :
    sint (pwmulWord s x y m i) = sint (s.seq x i) * sint (s.seq y i) % m :=
  have ⟨hzero, hle⟩ := modMul_range (sint (s.seq x i)) (sint (s.seq y i)) low
  sint_wrap64_of_le_modMax hzero (hle.trans high)

/-- One element of `PWMUL`: the operands go to `OPA` and `OPB`, their product to `RES` and from there to `SEQ[d][i]`. -/
theorem pseudoPwmulAt_eq {s : State} {d x y i : Nat} (hd : d < s.params.nbuf) (hx : x < s.params.nbuf)
    (hy : y < s.params.nbuf) (hi : i < s.params.nmax) (low : 1 ≤ s.m) (high : s.m ≤ modMax) :
    pseudoPwmulAt d x y i s =
      { s.setMem (Memory.put s.mem ⟨.seq, d, i⟩ (pwmulWord s x y s.m i)) with
        opa := s.seq x i
        opb := s.seq y i
        res := pwmulWord s x y s.m i
        status := statusWord 0
        replies := pwmulWord s x y s.m i :: s.seq y i :: s.seq x i :: s.replies } := by
  simp only [pseudoPwmulAt, afterHostStep_read, afterHostStep_write_opa, afterHostStep_write_opb]
  rw [afterHostStep_command rfl (exec_modmul (by exact low) (by exact high)),
    afterHostStep_write_seq (by exact hd) (by exact hi), hostRead_seq hx hi, hostRead_seq (by exact hy) (by exact hi)]
  rfl

/-- The state of `PWMUL` after `k` elements, begun in `s`: those of the destination are written, with words of `s`, since
element `k` of a buffer is read before it is written. -/
structure PwmulDone (d x y : Nat) (m : Int) (s : State) (k : Nat) (t : State) : Prop where
  params : t.params = s.params
  modulus : t.m = m
  word : ∀ a : Addr, t.word a = if a.space = .seq ∧ a.hi = d ∧ a.lo < k then pwmulWord s x y m a.lo else s.word a

section
variable {d x y slot k : Nat} {m : Int} {s t : State}

theorem PwmulDone.seq_same (h : PwmulDone d x y m s k t) (b : Nat) : t.seq b k = s.seq b k :=
  (h.word ⟨.seq, b, k⟩).trans (if_neg fun ⟨_, _, hlt⟩ => absurd hlt (lt_irrefl k))

theorem PwmulDone.pwmulWord_same (h : PwmulDone d x y m s k t) : pwmulWord t x y t.m k = pwmulWord s x y m k := by
  rw [pwmulWord, h.seq_same x, h.seq_same y, h.modulus, pwmulWord]

theorem PwmulDone.succ (h : PwmulDone d x y m s k t) (hd : d < s.params.nbuf) (hx : x < s.params.nbuf)
    (hy : y < s.params.nbuf) (hk : k < s.params.nmax) (low : 1 ≤ m) (high : m ≤ modMax) :
    PwmulDone d x y m s (k + 1) (pseudoPwmulAt d x y k t) := by
  rw [← h.params] at hd hx hy hk
  rw [pseudoPwmulAt_eq hd hx hy hk (h.modulus ▸ low) (h.modulus ▸ high), h.pwmulWord_same]
  refine ⟨h.params, h.modulus, fun a => (State.setMem_put_word t _ _ a).trans ?_⟩
  by_cases hlast : a = ⟨.seq, d, k⟩
  · subst hlast
    rw [if_pos rfl, if_pos ⟨rfl, rfl, Nat.lt_succ_self k⟩]
  · have hlo : a.space = .seq ∧ a.hi = d ∧ a.lo < k + 1 ↔ a.space = .seq ∧ a.hi = d ∧ a.lo < k :=
      and_congr_right fun hsp => and_congr_right fun hhi =>
        ⟨fun h => lt_of_le_of_ne (by omega) fun hlo => hlast (by rw [← hsp, ← hhi, ← hlo]), by omega⟩
    rw [if_neg hlast, h.word, if_congr hlo rfl rfl]

theorem pwmulDone_foldl (hd : d < s.params.nbuf) (hx : x < s.params.nbuf) (hy : y < s.params.nbuf) (low : 1 ≤ m)
    (high : m ≤ modMax) (h : PwmulDone d x y m s 0 t) : ∀ n : Nat, n ≤ s.params.nmax →
      PwmulDone d x y m s n ((List.range n).foldl (fun z i => pseudoPwmulAt d x y i z) t)
  | 0, _ => h
  | n + 1, hn => by
    rw [List.range_succ, List.foldl_concat]
    exact (pwmulDone_foldl hd hx hy low high h n (by omega)).succ hd hx hy (by omega) low high

theorem pwmulDone_pseudoPwmul {n : Nat} (hd : d < s.params.nbuf) (hx : x < s.params.nbuf) (hy : y < s.params.nbuf)
    (hslot : slot < s.params.nplans) (hn : n ≤ s.params.nmax) (low : 1 ≤ s.planP slot) (high : s.planP slot ≤ modMax) :
    PwmulDone d x y (s.planP slot) s n (pseudoPwmul d x y slot n s) := by
  simp only [pseudoPwmul, hostRead_plan_present hslot, afterHostStep_read, afterHostStep_write_opm]
  refine pwmulDone_foldl hd hx hy low high ?_ n hn
  exact ⟨rfl, rfl, fun a => (if_neg (by omega)).symm⟩

end

/-- Settles O51: every element reads old words only, and a product modulo `PLAN_P` reads as it was written. -/
theorem pwmulWritesThePointwiseProducts : Obligations.PwmulWritesThePointwiseProducts := by
  intro s d x y slot n hd hx hy hslot hn low high
  have hdone := pwmulDone_pseudoPwmul hd hx hy hslot hn low high
  refine ⟨fun i hi => ?_, fun a ha => (hdone.word a).trans (if_neg ha)⟩
  rw [State.seq_eq_word, hdone.word, if_pos ⟨rfl, rfl, hi⟩, sint_pwmulWord low high]

end Sys2Proof.Machine
end

section
/-! PROOFS. O20 to O22: the kernel arithmetic (40_kernel_functions.md R90 to R93). A loop's bound on its passes never
runs out, so each function obeys the document's own equations, and its value follows by induction along them. -/

namespace Sys2Proof.Machine

/-! ### `Gcd` and `Egcd` -/

theorem gcdLoop_eq : ∀ k a b : Nat, b < k → gcdLoop k a b = Nat.gcd a b := by
  intro k
  induction k with
  | zero => intro a b h; omega
  | succ k ih =>
    intro a b hb
    rw [gcdLoop]
    split_ifs with h0
    · simp [h0]
    · have hlt : a % b < b := Nat.mod_lt a (by omega)
      rw [ih b (a % b) (by omega), Nat.gcd_comm, ← Nat.gcd_rec, Nat.gcd_comm]

/-- Any bound that is at least the first argument gives the same answer. -/
theorem egcdLoop_eq_egcdLoop : ∀ {k l a b : Nat}, a ≤ k → a ≤ l → egcdLoop k a b = egcdLoop l a b
  | 0, 0, _, _, _, _ => rfl
  | 0, l + 1, a, b, hk, _ => by simp [egcdLoop, Nat.le_zero.1 hk]
  | k + 1, 0, a, b, _, hl => by simp [egcdLoop, Nat.le_zero.1 hl]
  | k + 1, l + 1, a, b, hk, hl => by
    rw [egcdLoop, egcdLoop]
    split_ifs with h0
    · rfl
    · have hlt : b % a < a := Nat.mod_lt b (by omega)
      rw [egcdLoop_eq_egcdLoop (by omega : b % a ≤ k) (by omega : b % a ≤ l)]

theorem egcd_zero (b : Nat) : egcd 0 b = (b, 0, 1) := rfl

/-- The document's recursion (R91). -/
theorem egcd_of_pos {a : Nat} (b : Nat) (ha : 0 < a) :
    egcd a b = ((egcd (b % a) a).1,
      (egcd (b % a) a).2.2 - ((b / a : Nat) : Int) * (egcd (b % a) a).2.1, (egcd (b % a) a).2.1) := by
  have hlt : b % a < a := Nat.mod_lt b ha
  rw [egcd, egcdLoop_eq_egcdLoop le_rfl (Nat.le_succ a), egcdLoop, if_neg ha.ne', egcdLoop_eq_egcdLoop hlt.le le_rfl,
    ← egcd]

theorem egcd_fst (a b : Nat) : (egcd a b).1 = Nat.gcd a b := by
  induction a, b using Nat.gcd.induction with
  | H0 b => rw [egcd_zero, Nat.gcd_zero_left]
  | H1 a b ha ih => rw [egcd_of_pos b ha, ih, ← Nat.gcd_rec]

/-- Settles O20: the values by induction along the recursion (`gcdLoop_eq`, `egcd_fst`), the identity by
`egcdLoop_bezout`. -/
theorem gcdAndEgcdFollowTheDocument : Obligations.GcdAndEgcdFollowTheDocument :=
  ⟨fun a b => gcdLoop_eq (b + 1) a b (by omega), egcd_zero, fun _ b ha => egcd_of_pos b ha, fun a b =>
    ⟨egcd_fst a b, (egcdLoop_bezout a a b le_rfl).trans (congrArg Nat.cast (egcd_fst a b))⟩⟩

/-! ### `ModInv` -/

/-- What `Egcd` answers to `ModInv` is the greatest common divisor that decides (R92). -/
theorem egcd_emod_fst (a : Int) {m : Int} (hm : 1 ≤ m) : (egcd (a % m).toNat m.toNat).1 = Int.gcd (a % m) m := by
  have ha : 0 ≤ a % m := Int.emod_nonneg a (by omega)
  rw [egcd_fst, Int.gcd_def]
  exact congrArg₂ Nat.gcd (by omega) (by omega)

/-- Inverses of one number are congruent, and equal in `[0, m)`. -/
theorem inverse_unique {a m u v : Int} (hu : 0 ≤ u) (hum : u < m) (hv : 0 ≤ v) (hvm : v < m)
    (hau : a * u % m = 1 % m) (hav : a * v % m = 1 % m) : u = v := by
  have hmod : u ≡ v [ZMOD m] := calc
    u = 1 * u := (one_mul u).symm
    _ ≡ a * v * u [ZMOD m] := (Int.ModEq.mul_right u hav).symm
    _ = v * (a * u) := by ring
    _ ≡ v * 1 [ZMOD m] := Int.ModEq.mul_left v hau
    _ = v := mul_one v
  rwa [Int.ModEq, Int.emod_eq_of_lt hu hum, Int.emod_eq_of_lt hv hvm] at hmod

/-- Settles O21: `Egcd`'s first component is the greatest common divisor that decides (`egcd_emod_fst`), its
coefficient the inverse (`modInv_ok`). -/
theorem modInvIsTheUniqueInverse : Obligations.ModInvIsTheUniqueInverse := by
  intro a m hm
  rw [← egcd_emod_fst a hm]
  refine ⟨fun hgcd => ?_, fun hgcd => if_neg hgcd⟩
  have hok : modInv a m = .ok _ := if_pos hgcd
  obtain ⟨hv, hvm, hav⟩ := modInv_ok hm hok
  exact ⟨_, hok, hv, hvm, hav, fun u hu hum hau => inverse_unique hu hum hv hvm hau hav⟩

/-! ### Double-and-add -/

theorem doubleAndAdd_eq (m : Int) : ∀ (k : Nat) (r x : Int) (y : Nat), y ≤ k → r % m = r →
    doubleAndAdd k r x y m = (r + x * y) % m := by
  intro k
  induction k with
  | zero =>
    intro r x y hy hr
    obtain rfl : y = 0 := by omega
    simp [doubleAndAdd, hr]
  | succ k ih =>
    intro r x y hy hr
    rw [doubleAndAdd]
    split_ifs with h0 hodd
    · simp [h0, hr]
    · have hy2 : (y : Int) = 2 * (y / 2 : Nat) + 1 := by omega
      rw [ih _ _ _ (by omega) (Int.emod_emod _ _), hy2,
        show r + x * (2 * (y / 2 : Nat) + 1) = r + x + (x + x) * (y / 2 : Nat) by ring]
      exact (Int.mod_modEq _ _).add ((Int.mod_modEq _ _).mul_right _)
    · have hy2 : (y : Int) = 2 * (y / 2 : Nat) := by omega
      rw [ih _ _ _ (by omega) hr, hy2, show r + x * (2 * (y / 2 : Nat)) = r + (x + x) * (y / 2 : Nat) by ring]
      exact Int.ModEq.add_left _ ((Int.mod_modEq _ _).mul_right _)

theorem modMulByDoubling_eq (a b : Int) {m : Int} (hm : 1 ≤ m) : modMulByDoubling a b m = a * b % m := by
  rw [modMulByDoubling, doubleAndAdd_eq m _ _ _ _ le_rfl (Int.zero_emod m), zero_add,
    Int.toNat_of_nonneg (Int.emod_nonneg b (by omega))]
  exact (Int.mod_modEq a m).mul (Int.mod_modEq b m)

/-- Both running words stay in `[0, m)`, so no sum of two of them exceeds `2 * (m - 1)` (R93). -/
theorem doublingSums_bound {m v : Int} (hm : 1 ≤ m) : ∀ (k : Nat) (r x : Int) (y : Nat),
    0 ≤ r → r < m → 0 ≤ x → x < m → v ∈ doublingSums k r x y m → 0 ≤ v ∧ v ≤ 2 * (m - 1) := by
  intro k
  induction k with
  | zero => intro r x y _ _ _ _ hv; simp [doublingSums] at hv
  | succ k ih =>
    intro r x y hr hrm hx hxm hv
    have range (z : Int) : 0 ≤ z % m ∧ z % m < m := ⟨Int.emod_nonneg z (by omega), Int.emod_lt_of_pos z (by omega)⟩
    obtain ⟨hx', hxm'⟩ := range (x + x)
    obtain ⟨hs, hsm⟩ := range (r + x)
    rw [doublingSums] at hv
    split_ifs at hv with h0 hodd
    · simp at hv
    · simp only [List.singleton_append, List.mem_cons] at hv
      obtain rfl | rfl | hv := hv
      · omega
      · omega
      · exact ih _ _ _ hs hsm hx' hxm' hv
    · simp only [List.nil_append, List.mem_cons] at hv
      obtain rfl | hv := hv
      · omega
      · exact ih _ _ _ hr hrm hx' hxm' hv

/-- Settles O22: the loop adds `x * y` to `r` modulo `m` (`doubleAndAdd_eq`), with both words below `m`
(`doublingSums_bound`). -/
theorem doubleAndAddIsExactAndFits : Obligations.DoubleAndAddIsExactAndFits := by
  intro a b m hm hmax
  have hpos : 0 < m := by omega
  refine ⟨modMulByDoubling_eq a b hm, rfl, Int.emod_nonneg _ hpos.ne', Int.emod_lt_of_pos _ hpos, fun v hv => ?_⟩
  obtain ⟨hv0, hv2⟩ := doublingSums_bound hm _ _ _ _ le_rfl hpos (Int.emod_nonneg a hpos.ne')
    (Int.emod_lt_of_pos a hpos) hv
  exact ⟨hv0, hv2, by omega⟩

end Sys2Proof.Machine
end

section
/-! PROOFS. O23 to O26: primes, factors, the totient and powers of two (40_kernel_functions.md R95 to R99). -/

namespace Sys2Proof.Machine

/-! ### `IsPrime` -/

/-- Trial division finds no divisor of a prime. -/
theorem trialDivision_prime {n : Nat} (hn : Nat.Prime n) : ∀ k d : Nat, 2 ≤ d → trialDivision k d n = true := by
  intro k
  induction k with
  | zero => exact fun _ _ => rfl
  | succ k ih =>
    intro d hd
    rw [trialDivision]
    split_ifs with hlt hmod
    · rfl
    · obtain rfl : d = n := (hn.eq_one_or_self_of_dvd d (Nat.dvd_of_mod_eq_zero hmod)).resolve_left (by omega)
      nlinarith
    · exact ih (d + 1) (by omega)

theorem isPrime_natCast_iff {limit n : Nat} : isPrime limit n = true ↔ Nat.Prime n ∧ n < limit := by
  refine ⟨fun h => ?_, fun ⟨hn, hlt⟩ => ?_⟩
  · obtain ⟨P, hP, hPn⟩ := exists_prime_of_isPrime h
    obtain rfl : n = P := by exact_mod_cast hPn
    simp only [isPrime, Bool.and_eq_true, decide_eq_true_eq] at h
    exact ⟨hP, by omega⟩
  · simp [isPrime, hn.two_le, hlt, trialDivision_prime hn]

/-- Settles O23: at a natural number `IsPrime` is primality below the limit (`isPrime_natCast_iff`), at a negative
one both sides are false. -/
theorem isPrimeIsPrimalityBelowTheLimit : Obligations.IsPrimeIsPrimalityBelowTheLimit := by
  intro limit n
  rcases lt_or_ge n 0 with hneg | hnonneg
  · exact iff_of_false (by simp [isPrime]; omega) (by omega)
  lift n to Nat using hnonneg
  rw [isPrime_natCast_iff, Nat.prime_def_lt']
  refine ⟨fun ⟨⟨h2, hdvd⟩, hlt⟩ => ⟨by omega, by omega, ?_⟩, fun ⟨h2, hlt, hdvd⟩ => ⟨⟨by omega, ?_⟩, by omega⟩⟩
  · rintro ⟨d, hd, hdn, hd'⟩
    lift d to Nat using by omega
    exact hdvd d (by omega) (by omega) (by exact_mod_cast hd')
  · exact fun d hd hdn hd' => hdvd ⟨d, by omega, by omega, by exact_mod_cast hd'⟩

/-! ### `FactorUUP` -/

/-- What is divided out is a power of the divisor. -/
theorem exists_pow_mul_divideOut (c : Nat) : ∀ k r : Nat, ∃ e, r = c ^ e * divideOut k c r := by
  intro k
  induction k with
  | zero => exact fun r => ⟨0, by simp [divideOut]⟩
  | succ k ih =>
    intro r
    rw [divideOut]
    split_ifs with hmod
    · obtain ⟨e, he⟩ := ih (r / c)
      exact ⟨e + 1, by rw [pow_succ', mul_assoc, ← he, Nat.mul_div_cancel' (Nat.dvd_of_mod_eq_zero hmod)]⟩
    · exact ⟨0, by simp⟩

/-- Nothing of the divisor is left, if the bound is at least the number divided. -/
theorem not_dvd_divideOut {c : Nat} (hc : 1 < c) : ∀ k r : Nat, 0 < r → r ≤ k → ¬ c ∣ divideOut k c r := by
  intro k
  induction k with
  | zero => intro r hr hrk; omega
  | succ k ih =>
    intro r hr hrk
    rw [divideOut]
    split_ifs with hmod
    · have hlt : r / c < r := Nat.div_lt_self hr hc
      exact ih _ (Nat.div_pos (Nat.le_of_dvd hr (Nat.dvd_of_mod_eq_zero hmod)) (by omega)) (by omega)
    · exact fun h => hmod (Nat.mod_eq_zero_of_dvd h)

/-- Dividing a prime out takes this prime, and no other, from the prime divisors. -/
theorem prime_dvd_divideOut_iff {c r q : Nat} (hc : Nat.Prime c) (hr : 0 < r) (hq : Nat.Prime q) :
    q ∣ divideOut r c r ↔ q ∣ r ∧ q ≠ c := by
  refine ⟨fun h => ⟨h.trans (divideOut_dvd c r r), ?_⟩, fun ⟨h, hne⟩ => ?_⟩
  · rintro rfl
    exact not_dvd_divideOut hc.one_lt r r hr le_rfl h
  · obtain ⟨e, he⟩ := exists_pow_mul_divideOut c r r
    rw [he] at h
    exact (hq.dvd_mul.1 h).resolve_left fun hpow =>
      hne ((Nat.prime_dvd_prime_iff_eq hq hc).1 (hq.dvd_of_dvd_pow hpow))

/-- The invariant of `FactorUUP` (R97): the factors found are the primes of `n` that the running quotient has lost,
and the quotient has lost every prime below the candidate `c`. -/
structure Swept (n c : Nat) (st : List Nat × Nat) : Prop where
  nodup : st.1.Nodup
  mem_iff : ∀ q, q ∈ st.1 ↔ Nat.Prime q ∧ q ∣ n ∧ ¬ q ∣ st.2
  rest_dvd : st.2 ∣ n
  le_prime : ∀ q, Nat.Prime q → q ∣ st.2 → c ≤ q

section
variable {n c : Nat} {st : List Nat × Nat}

theorem swept_start (n : Nat) : Swept n 2 ([], n) where
  nodup := List.nodup_nil
  mem_iff q := by simp
  rest_dvd := dvd_rfl
  le_prime _ hq _ := hq.two_le

theorem Swept.rest_pos (h : Swept n c st) (hn : 1 ≤ n) : 0 < st.2 := Nat.pos_of_dvd_of_pos h.rest_dvd hn

/-- Not only a prime: a divisor above 1 has a prime divisor, which is no larger. -/
theorem Swept.le_of_dvd (h : Swept n c st) {d : Nat} (hd : 1 < d) (hdvd : d ∣ st.2) : c ≤ d :=
  (h.le_prime _ (Nat.minFac_prime hd.ne') ((Nat.minFac_dvd d).trans hdvd)).trans (Nat.minFac_le (by omega))

/-- A candidate that divides the quotient is prime: the quotient has no smaller divisor above 1. -/
theorem Swept.prime_of_dvd (h : Swept n c st) (hc : 1 < c) (hdvd : c ∣ st.2) : Nat.Prime c :=
  Nat.prime_def_lt'.2 ⟨hc, fun d hd hdc hd' => absurd (h.le_of_dvd hd (hd'.trans hdvd)) (by omega)⟩

/-- A divisor of the quotient has not been found yet. -/
theorem Swept.nodup_append (h : Swept n c st) {q : Nat} (hdvd : q ∣ st.2) : (st.1 ++ [q]).Nodup := by
  have hnew : q ∉ st.1 := fun hmem => ((h.mem_iff q).1 hmem).2.2 hdvd
  simpa using h.nodup.concat hnew

theorem Swept.next {c' : Nat} (h : Swept n c st) (hnext : ∀ q, Nat.Prime q → q ∣ st.2 → c ≤ q → c' ≤ q) :
    Swept n c' st :=
  { h with le_prime := fun q hq hdvd => hnext q hq hdvd (h.le_prime q hq hdvd) }

theorem Swept.takeFactor (h : Swept n c st) (hn : 1 ≤ n) (hc : 1 < c) (hdvd : c ∣ st.2) :
    Swept n (c + 1) (takeFactor c st) := by
  have hprime := h.prime_of_dvd hc hdvd
  have hrest {q : Nat} (hq : Nat.Prime q) := prime_dvd_divideOut_iff hprime (h.rest_pos hn) hq
  refine ⟨h.nodup_append hdvd, fun q => ?_, (divideOut_dvd _ _ _).trans h.rest_dvd, fun q hq hq' => ?_⟩
  · simp only [Machine.takeFactor, List.mem_append, List.mem_singleton, h.mem_iff]
    constructor
    · rintro (⟨hq, hqn, hq'⟩ | rfl)
      · exact ⟨hq, hqn, fun h' => hq' ((hrest hq).1 h').1⟩
      · exact ⟨hprime, hdvd.trans h.rest_dvd, fun h' => ((hrest hprime).1 h').2 rfl⟩
    · rintro ⟨hq, hqn, hq'⟩
      rw [hrest hq] at hq'
      tauto
  · obtain ⟨hqr, hne⟩ := (hrest hq).1 hq'
    exact lt_of_le_of_ne (h.le_prime q hq hqr) hne.symm

/-- One pass: the candidate is taken out if the pass's test `P` holds, which it does when the candidate divides. -/
theorem Swept.pass {P : Prop} [Decidable P] (h : Swept n c st) (hn : 1 ≤ n) (hc : 1 < c) (hP : P ↔ c ∣ st.2) :
    Swept n (c + 1) (if P then Machine.takeFactor c st else st) := by
  split_ifs with hp
  · exact h.takeFactor hn hc (hP.1 hp)
  · exact h.next fun q _ hdvd hle => lt_of_le_of_ne hle (by rintro rfl; exact hp (hP.2 hdvd))

/-- A candidate that divides the quotient and is at most its half lies below the limit: the quotient is then at least
its square (the exactness argument of R97). -/
theorem Swept.isPrime_of_dvd (h : Swept n c st) {limit : Nat} (hlimit : 2 ^ 31 ≤ limit) (hn : 1 ≤ n)
    (hmax : n ≤ 2 ^ 62 - 1) (hc : 1 < c) (hdvd : c ∣ st.2) (hhalf : c ≤ st.2 / 2) : isPrime limit c = true := by
  refine isPrime_natCast_iff.2 ⟨h.prime_of_dvd hc hdvd, ?_⟩
  have hcd : c ≤ st.2 / c := h.le_of_dvd ((Nat.le_div_iff_mul_le (by omega)).2 (by omega)) (Nat.div_dvd_of_dvd hdvd)
  have hsq : c * c ≤ n := calc
    c * c ≤ c * (st.2 / c) := Nat.mul_le_mul_left c hcd
    _ ≤ st.2 := Nat.mul_div_le st.2 c
    _ ≤ n := Nat.le_of_dvd hn h.rest_dvd
  exact (Nat.mul_self_lt_mul_self_iff.1 (show c * c < 2 ^ 31 * 2 ^ 31 by omega)).trans_le hlimit

/-- A quotient above 1 is prime once the candidate has passed its half. -/
theorem Swept.prime_rest (h : Swept n c st) (hhalf : st.2 / 2 < c) (hrest : 1 < st.2) : Nat.Prime st.2 := by
  refine Nat.prime_def_lt'.2 ⟨hrest, fun d hd hlt hdvd => ?_⟩
  have hcd : c ≤ d := h.le_of_dvd hd hdvd
  obtain ⟨k, hk⟩ := hdvd
  have hk2 : 2 ≤ k := by
    by_contra hk2
    interval_cases k <;> omega
  have hmul : d * 2 ≤ d * k := Nat.mul_le_mul_left d hk2
  omega

end

/-- The candidates of the sweep are the numbers from 5 on that neither 2 nor 3 divides. -/
def SweepCandidate (c stride : Nat) : Prop :=
  5 ≤ c ∧ (c % 6 = 5 ∧ stride = 2 ∨ c % 6 = 1 ∧ stride = 4)

theorem SweepCandidate.next {c stride : Nat} (h : SweepCandidate c stride) :
    SweepCandidate (c + stride) (6 - stride) := by
  unfold SweepCandidate at *; omega

/-- No prime is stepped over. -/
theorem SweepCandidate.le_prime {c stride q : Nat} (h : SweepCandidate c stride) (hq : Nat.Prime q) (hcq : c < q) :
    c + stride ≤ q := by
  unfold SweepCandidate at h
  have not_dvd (d : Nat) (hd1 : d ≠ 1) (hdc : d < c) : ¬ d ∣ q := fun hd =>
    (hq.eq_one_or_self_of_dvd d hd).elim hd1 (by omega)
  have h2 := not_dvd 2 (by omega) (by omega)
  have h3 := not_dvd 3 (by omega) (by omega)
  omega

/-- The sweep ends with a candidate above half the quotient. -/
theorem Swept.factorLoop {n limit : Nat} (hlimit : 2 ^ 31 ≤ limit) (hn : 1 ≤ n) (hmax : n ≤ 2 ^ 62 - 1) :
    ∀ (k c stride : Nat) (st : List Nat × Nat), n ≤ c + k → SweepCandidate c stride → Swept n c st →
      ∃ c', (factorLoop limit k c stride st).2 / 2 < c' ∧ Swept n c' (factorLoop limit k c stride st) := by
  intro k
  induction k with
  | zero =>
    intro c stride st hnc _ h
    have hle := Nat.le_of_dvd hn h.rest_dvd
    have hpos := h.rest_pos hn
    exact ⟨c, show st.2 / 2 < c by omega, h⟩
  | succ k ih =>
    intro c stride st hnc hcand h
    have hc : 5 ≤ c := hcand.1
    rw [Machine.factorLoop]
    by_cases hhalf : c ≤ st.2 / 2
    · have htest : st.2 % c = 0 ∧ isPrime limit c = true ↔ c ∣ st.2 :=
        ⟨fun hp => Nat.dvd_of_mod_eq_zero hp.1,
          fun hd => ⟨Nat.mod_eq_zero_of_dvd hd, h.isPrime_of_dvd hlimit hn hmax (by omega) hd hhalf⟩⟩
      have hstride := hcand.2
      rw [if_pos hhalf]
      exact ih _ _ _ (by omega) hcand.next
        ((h.pass hn (by omega) htest).next fun q hq _ hcq => hcand.le_prime hq hcq)
    · rw [if_neg hhalf]
      exact ⟨c, by omega, h⟩

/-- `FactorUUP` ends with its invariant and the quotient swept to its half. -/
theorem factorUUP_swept {limit n : Nat} (hlimit : 2 ^ 31 ≤ limit) (hn : 1 ≤ n) (hmax : n ≤ 2 ^ 62 - 1) :
    ∃ c st, st.2 / 2 < c ∧ Swept n c st ∧ factorUUP limit n = if 1 < st.2 then st.1 ++ [st.2] else st.1 := by
  have h2 := (swept_start n).pass hn one_lt_two (Nat.dvd_iff_mod_eq_zero (n := n)).symm
  have h3 := h2.pass hn (by omega) Nat.dvd_iff_mod_eq_zero.symm
  have h5 := h3.next (c' := 5) fun q hq _ hle => Nat.lt_of_le_of_ne hle (by rintro rfl; exact absurd hq (by decide))
  obtain ⟨c, hhalf, h⟩ := h5.factorLoop hlimit hn hmax n 5 2 _ (by omega) ⟨le_rfl, .inl ⟨rfl, rfl⟩⟩
  exact ⟨c, _, hhalf, h, rfl⟩

/-- Settles O24: the primes found and, unless it is 1, the prime left (`Swept.prime_rest`) are the primes of `n`. -/
theorem factorUUPListsTheDistinctPrimes : Obligations.FactorUUPListsTheDistinctPrimes := by
  intro limit n hlimit hn hmax
  obtain ⟨c, ⟨found, rest⟩, hhalf, h, heq⟩ := factorUUP_swept hlimit hn hmax
  rw [heq]
  split_ifs with hrest
  · have hprime := h.prime_rest hhalf hrest
    refine ⟨h.nodup_append dvd_rfl, fun q => ?_⟩
    simp only [List.mem_append, List.mem_singleton, h.mem_iff]
    constructor
    · rintro (⟨hq, hqn, -⟩ | rfl)
      · exact ⟨hq, hqn⟩
      · exact ⟨hprime, h.rest_dvd⟩
    · rintro ⟨hq, hqn⟩
      by_cases hqr : q ∣ rest
      · exact .inr ((Nat.prime_dvd_prime_iff_eq hq hprime).1 hqr)
      · exact .inl ⟨hq, hqn, hqr⟩
  · obtain rfl : rest = 1 := le_antisymm (by omega) (h.rest_pos hn)
    refine ⟨h.nodup, fun q => (h.mem_iff q).trans ⟨fun ⟨hq, hqn, _⟩ => ⟨hq, hqn⟩, fun ⟨hq, hqn⟩ => ?_⟩⟩
    exact ⟨hq, hqn, hq.one_lt.ne' ∘ Nat.dvd_one.1⟩

/-! ### `Totient` -/

/-- One pass of R96 for a divisor `p` scales by `(p - 1) / p`, so a list of them does by the quotient of products. -/
theorem foldl_totient_mul_prod : ∀ (ps : List Nat) (tot : Nat), (∀ p ∈ ps, 0 < p) → ps.prod ∣ tot →
    ps.foldl (fun tot p => tot - tot / p) tot * ps.prod = tot * (ps.map (· - 1)).prod := by
  intro ps
  induction ps with
  | nil => intro tot _ _; rfl
  | cons p ps ih =>
    intro tot hpos hdvd
    obtain ⟨hp, hps⟩ := List.forall_mem_cons.1 hpos
    obtain ⟨k, rfl⟩ := hdvd
    have hpass : p * ps.prod * k - p * ps.prod * k / p = ps.prod * k * (p - 1) := by
      rw [mul_assoc, Nat.mul_div_cancel_left _ hp, mul_comm p, Nat.mul_sub_one]
    simp only [List.foldl_cons, List.map_cons, List.prod_cons, hpass]
    have hih := ih (ps.prod * k * (p - 1)) hps ((Dvd.intro _ rfl).mul_right _)
    linear_combination p * hih

/-- Settles O25: over the distinct primes (`factorUUPListsTheDistinctPrimes`) the passes give Euler's product
formula. -/
theorem totientIsEulers : Obligations.TotientIsEulers := by
  intro limit n hlimit hn hmax
  obtain ⟨hnodup, hmem⟩ := factorUUPListsTheDistinctPrimes limit n hlimit hn hmax
  have hfactors : n.primeFactors = (factorUUP limit n).toFinset := by
    ext q
    simp only [List.mem_toFinset, hmem, Nat.mem_primeFactors]
    exact ⟨fun ⟨hq, hqn, _⟩ => ⟨hq, hqn⟩, fun ⟨hq, hqn⟩ => ⟨hq, hqn, by omega⟩⟩
  have hprod (f : Nat → Nat) : ∏ p ∈ n.primeFactors, f p = ((factorUUP limit n).map f).prod := by
    rw [hfactors, List.prod_toFinset f hnodup]
  have hdvd : (factorUUP limit n).prod ∣ n := by simpa [hprod] using Nat.prod_primeFactors_dvd n
  have hpos : ∀ p ∈ factorUUP limit n, 0 < p := fun p hp => ((hmem p).1 hp).1.pos
  have heuler := Nat.totient_mul_prod_primeFactors n
  rw [hprod, hprod, List.map_id', ← foldl_totient_mul_prod _ n hpos hdvd] at heuler
  exact (Nat.eq_of_mul_eq_mul_right (Nat.pos_of_dvd_of_pos hdvd hn) heuler).symm

/-! ### `IsPow2` and `Log2` -/

theorem isPow2_two_pow (e : Nat) : isPow2 (2 ^ e) = true := by
  have hpos : (1 : Int) ≤ 2 ^ e := one_le_pow₀ (by omega)
  simp [isPow2, hpos, Int.toNat_pow_of_nonneg]

/-- Settles O26: a number that `IsPow2` accepts is 2 to its own logarithm (`exists_pow_of_isPow2`), and Mathlib has
the logarithm of a power of two. -/
theorem isPow2AndLog2AreExact : Obligations.IsPow2AndLog2AreExact := by
  refine fun n => ⟨⟨exists_pow_of_isPow2, ?_⟩, ?_⟩
  · rintro ⟨e, rfl⟩
    exact isPow2_two_pow e
  · rintro e rfl
    simp [Int.toNat_pow_of_nonneg]

end Sys2Proof.Machine
end

section
/-! PROOFS. O28 to O30: `MODMUL`, `MODPOW` and the program `MODINV` (41_modular_arithmetic.md R110 to R112). A scalar
command under a modulus in its range ends with the value that its kernel function answers, or with its error. -/

namespace Sys2Proof.Machine

/-! ### The end of a scalar command -/

theorem modulusOk_iff {m : Int} : modulusOk m = true ↔ 1 ≤ m ∧ m ≤ modMax := by simp [modulusOk]

section
variable {s : State} {value : Int → Except Err Int}

theorem scalarCommand_ok {v : Int} (low : 1 ≤ s.m) (high : s.m ≤ modMax) (hvalue : value s.m = .ok v) :
    scalarCommand s value = { s with res := wrap64 v, status := 0x01 } := by
  rw [scalarCommand, if_pos (modulusOk_iff.2 ⟨low, high⟩), hvalue]
  rfl

theorem scalarCommand_error {e : Err} (low : 1 ≤ s.m) (high : s.m ≤ modMax) (hvalue : value s.m = .error e) :
    scalarCommand s value = raise e s := by
  rw [scalarCommand, if_pos (modulusOk_iff.2 ⟨low, high⟩), hvalue]
  rfl

theorem scalarCommand_badOperand (hout : s.m < 1 ∨ modMax < s.m) :
    scalarCommand s value = { s with status := 0x41 } := by
  rw [scalarCommand, if_neg (by rw [modulusOk_iff]; omega)]
  rfl

end

/-- A remainder modulo a modulus in range fits `RES`. -/
theorem sint_wrap64_emod (x : Int) {m : Int} (low : 1 ≤ m) (high : m ≤ modMax) : sint (wrap64 (x % m)) = x % m :=
  sint_wrap64_of_le_modMax (Int.emod_nonneg x (by omega)) ((Int.emod_lt_of_pos x (by omega)).le.trans high)

/-! ### `MODMUL` -/

/-- Settles O28: the product is reduced once, and a remainder reads as it was written (`sint_wrap64_emod`). -/
theorem modmulWritesTheProduct : Obligations.ModmulWritesTheProduct := by
  refine ⟨decode_encode (i := .modmul) rfl, fun s => ⟨fun ⟨(low : 1 ≤ s.m), high⟩ => ?_, fun hout => ?_⟩⟩
  · have hres : sint (wrap64 (modMul s.a s.b s.m)) = s.a * s.b % s.m := sint_wrap64_emod _ low high
    refine ⟨_, exec_modmul low high, hres, ?_, ?_⟩
    · exact hres ▸ Int.emod_nonneg _ (by omega)
    · exact hres.trans_lt (Int.emod_lt_of_pos _ low)
  · exact congrArg Host.Outcome.next (scalarCommand_badOperand hout)

/-! ### `MODPOW` -/

theorem modPow_of_nonneg {a b m : Int} (hb : 0 ≤ b) : modPow a b m = .ok (a ^ b.toNat % m) := by
  rw [modPow, if_neg (not_lt.2 hb), powMod_eq]

theorem modPow_of_inverse {a b m v : Int} (hb : b < 0) (hv : modInv a m = .ok v) :
    modPow a b m = .ok (v ^ (-b).toNat % m) := by
  simp only [modPow, if_pos hb, hv, powMod_eq]

theorem modPow_of_error {a b m : Int} {e : Err} (hb : b < 0) (he : modInv a m = .error e) :
    modPow a b m = .error e := by
  simp only [modPow, if_pos hb, he]

/-- `MODPOW` under a modulus in its range, when the kernel function answers a value (R111). -/
theorem exec_modpow {s : State} {v : Int} (low : 1 ≤ s.m) (high : s.m ≤ modMax) (hv : modPow s.a s.b s.m = .ok v) :
    exec .modpow s = .next { s with res := wrap64 v, status := 0x01 } :=
  congrArg Host.Outcome.next (scalarCommand_ok low high hv)

/-- Settles O29: by the sign of the exponent, and for a negative one by whether `ModInv` answers
(`modInvIsTheUniqueInverse`). -/
theorem modpowWritesThePower : Obligations.ModpowWritesThePower := by
  refine ⟨decode_encode (i := .modpow) rfl, fun s => ⟨fun low high hb => ?power, fun low high hb hgcd => ?inverse,
    fun low high hb hgcd => ?notInvertible, fun hout => ?badOperand⟩⟩
  case power => exact ⟨_, exec_modpow low high (modPow_of_nonneg hb), sint_wrap64_emod _ low high⟩
  case inverse =>
    obtain ⟨v, hv, hv0, hvm, hav, -⟩ := (modInvIsTheUniqueInverse s.a s.m low).1 hgcd
    exact ⟨_, v, exec_modpow low high (modPow_of_inverse hb hv), hv0, hvm, hav, sint_wrap64_emod _ low high⟩
  case notInvertible =>
    have he := (modInvIsTheUniqueInverse s.a s.m low).2 hgcd
    exact congrArg Host.Outcome.next (scalarCommand_error low high (modPow_of_error hb he))
  case badOperand => exact congrArg Host.Outcome.next (scalarCommand_badOperand hout)

/-! ### `MODINV` -/

/-- `MODINV` leaves the inverse in `RES` (R112): the exponent is -1. -/
theorem pseudoModinv_eq {s : State} {v : Int} (low : 1 ≤ s.m) (high : s.m ≤ modMax) (hv : modInv s.a s.m = .ok v) :
    pseudoModinv s = { s with opb := wrap64 (-1), res := wrap64 v, status := 0x01 } := by
  obtain ⟨hv0, hvm, -⟩ := modInv_ok low hv
  have hb : (s.setOpb (wrap64 (-1))).b = -1 := sint_wrap64 (by omega) (by omega)
  have hpow : modPow s.a (s.setOpb (wrap64 (-1))).b s.m = .ok v := by
    rw [hb, modPow_of_inverse (by omega) hv]
    simp [Int.emod_eq_of_lt hv0 hvm]
  exact afterHostStep_command rfl (exec_modpow (s := s.setOpb (wrap64 (-1))) low high hpow)

/-- Settles O30: `MODINV` leaves the inverse of `OPA` (`pseudoModinv_eq`), which reads as it was written. -/
theorem inverseTimesOperandIsOne : Obligations.InverseTimesOperandIsOne := by
  intro s low high hgcd
  obtain ⟨v, hv, hv0, hvm, hav, -⟩ := (modInvIsTheUniqueInverse s.a s.m low).1 hgcd
  rw [pseudoModinv_eq low high hv]
  refine ⟨_, exec_modmul low high, ?_, errField_statusWord_zero⟩
  calc sint (wrap64 (s.a * sint (wrap64 v) % s.m))
      = s.a * sint (wrap64 v) % s.m := sint_wrap64_emod _ low high
    _ = s.a * v % s.m := by rw [sint_wrap64_of_le_modMax hv0 (hvm.le.trans high)]
    _ = 1 % s.m := hav

end Sys2Proof.Machine
end

section
/-! PROOFS. O31 and O32: `PROOT` (42_root_search.md R120, R121). The search tests with the exact primes of `φ(n)`, and
the candidate `n` always passes, so it ends with the least passing candidate; below a prime the candidates that pass
are its primitive roots. -/

namespace Sys2Proof.Machine

/-! ### The test of a candidate -/

/-- The test of R120 as mathematics: `a ^ (φ(n) / q)` is not 1 modulo `n`, for every prime `q` of `φ(n)`. -/
def PassesRootTest (n a : Nat) : Prop := ∀ q, Nat.Prime q → q ∣ n.totient → a ^ (n.totient / q) % n ≠ 1

/-- The model's test is R120's: it runs over exactly the primes of `φ(n)` (`factorUUPListsTheDistinctPrimes`). -/
theorem rootTest_factorUUP_iff {limit n : Nat} (hlimit : 2 ^ 31 ≤ limit) (hn : 1 ≤ n) (hmax : n ≤ 2 ^ 62 - 1)
    (a : Nat) : rootTest n n.totient (factorUUP limit n.totient) a = true ↔ PassesRootTest n a := by
  obtain ⟨-, hmem⟩ := factorUUPListsTheDistinctPrimes limit n.totient hlimit (Nat.totient_pos.2 hn)
    ((Nat.totient_le n).trans hmax)
  have hpow (q : Nat) : powMod a (n.totient / q) n = 1 ↔ a ^ (n.totient / q) % n = 1 := by
    rw [powMod_eq]
    norm_cast
  simp only [rootTest, List.all_eq_true, decide_eq_true_eq, hmem, Ne, hpow, PassesRootTest, and_imp]

/-- The candidate `n` passes, because its powers are 0 modulo `n` (R120). -/
theorem passesRootTest_self {n : Nat} (hn : 1 ≤ n) : PassesRootTest n n := by
  intro q hq hdvd
  have hpos : n.totient / q ≠ 0 := (Nat.div_pos (Nat.le_of_dvd (Nat.totient_pos.2 hn) hdvd) hq.pos).ne'
  rw [Nat.mod_eq_zero_of_dvd (dvd_pow_self n hpos)]
  exact zero_ne_one

/-! ### The scan -/

/-- A scan that a passing candidate stands in does not fail (R120). -/
theorem exists_rootScan_ok {n phi : Nat} {qs : List Nat} {c : Nat} (hc : rootTest n phi qs c = true) :
    ∀ k a : Nat, a ≤ c → c < a + k → ∃ g, rootScan n phi qs k a = .ok g := by
  intro k
  induction k with
  | zero => intro a hlow hhigh; omega
  | succ k ih =>
    intro a hlow hhigh
    rw [rootScan]
    split_ifs with htest
    · exact ⟨a, rfl⟩
    · have hne : a ≠ c := by rintro rfl; exact htest hc
      exact ih (a + 1) (by omega) (by omega)

/-- `a` is what R120 asks of `PrimitiveRoot(n)`: the least candidate of `[2, n]` that passes. -/
structure LeastPassing (n a : Nat) : Prop where
  two_le : 2 ≤ a
  le : a ≤ n
  passes : PassesRootTest n a
  least : ∀ b, 2 ≤ b → b < a → ¬ PassesRootTest n b

/-- From 2 on, `PrimitiveRoot` never fails and answers its least passing candidate (R120). -/
theorem primitiveRoot_ok {limit n : Nat} (hlimit : 2 ^ 31 ≤ limit) (hn : 2 ≤ n) (hmax : n ≤ 2 ^ 62 - 1) :
    ∃ a : Nat, primitiveRoot limit n = .ok a ∧ LeastPassing n a := by
  have hone : 1 ≤ n := by omega
  have htest := rootTest_factorUUP_iff hlimit hone hmax
  have hdef : primitiveRoot limit n = rootScan n n.totient (factorUUP limit n.totient) (n - 1) 2 := by
    rw [primitiveRoot, totientIsEulers limit n hlimit hone hmax]
  obtain ⟨g, hg⟩ := exists_rootScan_ok ((htest n).2 (passesRootTest_self hone)) (n - 1) 2 hn (by omega)
  obtain ⟨a, rfl, hlow, hhigh, hpass, hleast⟩ := rootScan_ok _ _ hg
  refine ⟨a, hdef.trans hg, hlow, by omega, (htest a).1 hpass, fun b hb hba hb' => ?_⟩
  exact absurd ((htest b).2 hb') (by simp [hleast b hb hba])

/-! ### `PROOT` -/

/-- `PROOT` under a modulus of `[2, MOD_MAX]` (R121): `RES` reads the least passing candidate. -/
theorem exec_proot {s : State} {n : Nat} (hwf : s.params.Wf) (hm : s.m = n) (hn : 2 ≤ n) (hmax : n ≤ 2 ^ 62 - 1) :
    ∃ (r : Word) (a : Nat), exec .proot s = .next { s with res := r, status := 0x01 } ∧ sint r = a ∧
      LeastPassing n a := by
  obtain ⟨-, -, -, -, -, -, -, hlimit, -⟩ := hwf
  obtain ⟨a, hroot, ha⟩ := primitiveRoot_ok hlimit hn hmax
  have hrange : (n : Int) ≤ modMax := by unfold modMax; omega
  have hvalue : primitiveRoot s.params.primeLimit s.m.toNat = .ok a := by rw [hm]; exact hroot
  have han := ha.le
  exact ⟨_, a, congrArg Host.Outcome.next (scalarCommand_ok (by omega) (hm.trans_le hrange) hvalue),
    sint_wrap64_of_le_modMax (by omega) (by omega), ha⟩

/-- Settles O31: the least passing candidate (`exec_proot`); for 1 the scan is empty. -/
theorem prootWritesTheLeastPassingCandidate : Obligations.ProotWritesTheLeastPassingCandidate := by
  refine fun s hwf => ⟨fun n hm hn hmax => ?found, fun (hm : s.m = 1) => ?noRootFound, fun hout => ?badOperand⟩
  case found =>
    obtain ⟨r, a, hexec, hr, hlow, hhigh, hpass, hleast⟩ := exec_proot hwf hm hn hmax
    refine ⟨r, a, hexec, hr, hlow, hhigh, hpass, fun b hb hba => ?_⟩
    simpa [PassesRootTest] using hleast b hb hba
  case noRootFound =>
    have hfail : primitiveRoot s.params.primeLimit s.m.toNat = .error .noRootFound := by rw [hm]; rfl
    exact congrArg Host.Outcome.next (scalarCommand_error (e := .noRootFound) hm.ge (hm.trans_le (by decide)) hfail)
  case badOperand => exact congrArg Host.Outcome.next (scalarCommand_badOperand hout)

/-! ### A prime operand -/

/-- Below a prime, a candidate passes exactly when its order is the whole group's: the order divides `n - 1`, and a
proper divisor of `n - 1` divides some `(n - 1) / q` (R120). -/
theorem passesRootTest_iff_orderOf {n a : Nat} (hn : Nat.Prime n) (h3 : 3 ≤ n) (hlow : 1 ≤ a) (hhigh : a < n) :
    PassesRootTest n a ↔ orderOf (a : ZMod n) = n - 1 := by
  have := Fact.mk hn
  have hmod (e : Nat) : a ^ e % n = 1 ↔ (a : ZMod n) ^ e = 1 := by
    exact_mod_cast emod_eq_one_iff hn.one_lt ((a : Int) ^ e)
  simp only [PassesRootTest, Nat.totient_prime hn, Ne, hmod]
  constructor
  · intro hpass
    have hne : (a : ZMod n) ≠ 0 := fun h0 =>
      Nat.not_dvd_of_pos_of_lt hlow hhigh ((ZMod.natCast_eq_zero_iff a n).1 h0)
    exact orderOf_eq_of_pow_and_pow_div_prime (by omega) (ZMod.pow_card_sub_one_eq_one hne) hpass
  · intro horder q hq hdvd
    have hpos : 0 < (n - 1) / q := Nat.div_pos (Nat.le_of_dvd (by omega) hdvd) hq.pos
    exact pow_ne_one_of_lt_orderOf hpos.ne' (horder ▸ Nat.div_lt_self (by omega) hq.one_lt)

/-- Below a prime stands a candidate that passes, for a prime has a primitive root (`exists_rootTest`). -/
theorem exists_passesRootTest_lt {n : Nat} (hn : Nat.Prime n) (h3 : 3 ≤ n) (hmax : n ≤ 2 ^ 62 - 1) :
    ∃ b, 2 ≤ b ∧ b < n ∧ PassesRootTest n b := by
  obtain ⟨b, hlow, hhigh, hb⟩ := exists_rootTest hn h3 (2 ^ 31)
  rw [← Nat.totient_prime hn] at hb
  exact ⟨b, hlow, hhigh, (rootTest_factorUUP_iff le_rfl hn.one_le hmax b).1 hb⟩

/-- Settles O32: what `PROOT` writes (`exec_proot`) is below the prime, where passing the test is having the full order
(`passesRootTest_iff_orderOf`). -/
theorem prootOfAPrimeIsItsLeastPrimitiveRoot : Obligations.ProotOfAPrimeIsItsLeastPrimitiveRoot := by
  intro s n hwf hprime h3 hmax hm
  obtain ⟨r, a, hexec, hr, hlow, hle, hpass, hleast⟩ := exec_proot hwf hm (by omega) hmax
  obtain ⟨c, hc2, hcn, hc⟩ := exists_passesRootTest_lt hprime h3 hmax
  have hac : a ≤ c := le_of_not_gt fun hca => hleast c hc2 hca hc
  have horder {b : Nat} (hb : 2 ≤ b) (hbn : b < n) : PassesRootTest n b ↔ orderOf (b : ZMod n) = n - 1 :=
    passesRootTest_iff_orderOf hprime h3 (by omega) hbn
  exact ⟨r, a, hexec, hr, hlow, by omega, (horder hlow (by omega)).1 hpass,
    fun b hb hba hob => hleast b hb hba ((horder hb (by omega)).2 hob)⟩

end Sys2Proof.Machine
end

section
/-! PROOFS. O27: `SelectModulus` (43_plan_init.md R125). A scan with passes enough to reach the limit answers the least
candidate that passes, and fails if none does. -/

namespace Sys2Proof.Machine

/-- What R125 asks of the modulus of a length `n`, among the candidates `n*j + 1` from `j = k` on. -/
structure LeastModulus (limit n k : Nat) (p : Int) : Prop where
  form : ∃ j : Nat, k ≤ j ∧ p = n * j + 1
  prime : isPrime limit p = true
  high : p ≤ modMax
  least : ∀ j : Nat, k ≤ j → (n * j + 1 : Int) < p → isPrime limit (n * j + 1) = false

/-- No candidate from `j = k` on passes within the bound (R125). -/
def NoModulusFrom (limit n k : Nat) : Prop :=
  ∀ j : Nat, k ≤ j → isPrime limit (n * j + 1) = true → modMax < n * j + 1

section
variable {limit n k : Nat} {p q : Int}

theorem LeastModulus.of_succ (h : LeastModulus limit n (k + 1) p) (hk : isPrime limit (n * k + 1) = false) :
    LeastModulus limit n k p := by
  obtain ⟨⟨j, hj, hp⟩, hprime, hhigh, hleast⟩ := h
  refine ⟨⟨j, by omega, hp⟩, hprime, hhigh, fun i hi hip => ?_⟩
  obtain rfl | hlt := eq_or_lt_of_le hi
  · exact hk
  · exact hleast i hlt hip

theorem NoModulusFrom.of_succ (h : NoModulusFrom limit n (k + 1)) (hk : isPrime limit (n * k + 1) = false) :
    NoModulusFrom limit n k := by
  intro j hj hprime
  obtain rfl | hlt := eq_or_lt_of_le hj
  · simp [hk] at hprime
  · exact h j hlt hprime

theorem LeastModulus.le (hp : LeastModulus limit n k p) (hq : LeastModulus limit n k q) : p ≤ q := by
  obtain ⟨j, hj, rfl⟩ := hq.form
  by_contra hlt
  simpa [hp.least j hj (by omega)] using hq.prime

theorem LeastModulus.unique (hp : LeastModulus limit n k p) (hq : LeastModulus limit n k q) : p = q :=
  le_antisymm (hp.le hq) (hq.le hp)

theorem LeastModulus.not_noModulusFrom (hp : LeastModulus limit n k p) : ¬ NoModulusFrom limit n k := by
  obtain ⟨⟨j, hj, rfl⟩, hprime, hhigh, -⟩ := hp
  exact fun h => absurd (h j hj hprime) (by omega)

/-- From a candidate that is out of bounds on, none passes within them. -/
theorem noModulusFrom_of_bound (h : limit ≤ n * k + 1 ∨ modMax < n * k + 1) : NoModulusFrom limit n k := by
  intro j hj hprime
  have hkj : (n * k + 1 : Int) ≤ n * j + 1 := by exact_mod_cast Nat.succ_le_succ (Nat.mul_le_mul_left n hj)
  simp only [isPrime, Bool.and_eq_true, decide_eq_true_eq] at hprime
  obtain ⟨⟨-, hlimit⟩, -⟩ := hprime
  have : (limit : Int) ≤ n * k + 1 ∨ modMax < n * k + 1 := by exact_mod_cast h
  omega

end

/-- A search whose bound on the passes reaches the limit answers the least candidate that passes, and fails if there is
none (R125). -/
theorem modulusScan_cases {limit n : Nat} (hn : 1 ≤ n) : ∀ fuel k : Nat, limit ≤ fuel + k →
    (∃ p, modulusScan limit n fuel k = .ok p ∧ LeastModulus limit n k p) ∨
      (modulusScan limit n fuel k = .error .noModulus ∧ NoModulusFrom limit n k) := by
  intro fuel
  induction fuel with
  | zero => exact fun k hk => .inr ⟨rfl, noModulusFrom_of_bound (.inl (by nlinarith))⟩
  | succ fuel ih =>
    intro k hk
    rw [modulusScan]
    push_cast
    split_ifs with hbound hprime
    · exact .inr ⟨rfl, noModulusFrom_of_bound hbound⟩
    · refine .inl ⟨_, rfl, ⟨k, le_rfl, rfl⟩, hprime, by omega, fun j hj hlt => ?_⟩
      have : (n * k : Int) ≤ n * j := by exact_mod_cast Nat.mul_le_mul_left n hj
      omega
    · have hk' := Bool.eq_false_iff.2 hprime
      obtain ⟨p, hp, h⟩ | ⟨hp, h⟩ := ih (k + 1) (by omega)
      · exact .inl ⟨p, hp, h.of_succ hk'⟩
      · exact .inr ⟨hp, h.of_succ hk'⟩

theorem selectModulus_ok_iff {limit n : Nat} (hn : 1 ≤ n) {p : Int} :
    selectModulus limit n = .ok p ↔ LeastModulus limit n 1 p := by
  obtain ⟨q, hq, h⟩ | ⟨hq, h⟩ := modulusScan_cases hn limit 1 (Nat.le_add_right limit 1) <;> rw [selectModulus, hq]
  · exact ⟨fun heq => by cases heq; exact h, fun hp => congrArg _ (h.unique hp)⟩
  · exact iff_of_false (fun heq => nomatch heq) fun hp => hp.not_noModulusFrom h

theorem selectModulus_noModulus_iff {limit n : Nat} (hn : 1 ≤ n) :
    selectModulus limit n = .error .noModulus ↔ NoModulusFrom limit n 1 := by
  obtain ⟨q, hq, h⟩ | ⟨hq, h⟩ := modulusScan_cases hn limit 1 (Nat.le_add_right limit 1) <;> rw [selectModulus, hq]
  · exact iff_of_false (fun heq => nomatch heq) h.not_noModulusFrom
  · exact iff_of_true rfl h

theorem leastModulus_iff {limit n k : Nat} {p : Int} : LeastModulus limit n k p ↔
    (∃ j : Nat, k ≤ j ∧ p = n * j + 1) ∧ isPrime limit p = true ∧ p ≤ modMax ∧
      ∀ j : Nat, k ≤ j → (n * j + 1 : Int) < p → isPrime limit (n * j + 1) = false :=
  ⟨fun ⟨h1, h2, h3, h4⟩ => ⟨h1, h2, h3, h4⟩, fun ⟨h1, h2, h3, h4⟩ => ⟨h1, h2, h3, h4⟩⟩

/-- Settles O27: the search answers the one least modulus (`selectModulus_ok_iff`), and fails where there is none. -/
theorem selectModulusIsTheLeastPrime : Obligations.SelectModulusIsTheLeastPrime := by
  intro limit n hn
  have hmax : (2 ^ 62 - 1 : Int) = modMax := by decide
  rw [hmax]
  exact ⟨fun p => (selectModulus_ok_iff (by omega)).trans leastModulus_iff, selectModulus_noModulus_iff (by omega)⟩

end Sys2Proof.Machine
end

section
/-! PROOFS. O33, O34: `TWID` (43_plan_init.md R126). The command ends as its computation `planInit` does: each check has
its error, and for a prime that passes them no later computation fails. -/

namespace Sys2Proof.Machine

/-! ### How `TWID` ends -/

section
variable {s : State} {slot : Nat}

theorem exec_twid_badSelect (hslot : s.params.nplans ≤ slot) : exec (.twid slot) s = .next (raise .badSelect s) :=
  congrArg (fun r => Host.Outcome.next (finish s r)) (if_neg (by omega))

theorem exec_twid_ok {d : PlanData} (hslot : slot < s.params.nplans) (hd : planInit s.params s.a s.m = .ok d) :
    exec (.twid slot) s = .next ((storePlan s slot s.a d).setStatus (statusWord 0)) := by
  simp only [exec, execTwid, if_pos hslot, hd, finish_ok]

theorem exec_twid_error {e : Err} (hslot : slot < s.params.nplans) (he : planInit s.params s.a s.m = .error e) :
    exec (.twid slot) s = .next (raise e s) := by
  simp only [exec, execTwid, if_pos hslot, he, finish_error]

end

/-! ### The checks of `TWID` -/

theorem lengthOk_two_pow {c : Params} {e : Nat} (he : 1 ≤ e) (hmax : (2 : Int) ^ e ≤ c.nmax) :
    lengthOk c (2 ^ e) = true :=
  lengthOk_iff.2 ⟨le_self_pow₀ (by omega) (by omega), hmax, isPow2_two_pow e⟩

theorem planInit_invalidSize {c : Params} {n psel : Int} (hn : lengthOk c n = false) :
    planInit c n psel = .error .invalidSize := by
  simp [planInit, hn]

theorem planInit_badOperand {c : Params} {n psel : Int} (hn : lengthOk c n = true) (hpsel : psel < 0 ∨ modMax < psel) :
    planInit c n psel = .error .badOperand := by
  simp [planInit, hn, hpsel]

section
variable {c : Params} {n psel : Int} (hn : lengthOk c n = true) (hlow : 0 ≤ psel) (hhigh : psel ≤ modMax)
include hn hlow hhigh

theorem planInit_of_modulus {p : Int} (hp : chooseModulus c n psel = .ok p) : planInit c n psel = planFor c n p := by
  simp [planInit, hn, hp, not_or.2 ⟨not_lt.2 hlow, not_lt.2 hhigh⟩]

theorem planInit_of_noModulus {e : Err} (he : chooseModulus c n psel = .error e) : planInit c n psel = .error e := by
  simp [planInit, hn, he, not_or.2 ⟨not_lt.2 hlow, not_lt.2 hhigh⟩]

end

theorem chooseModulus_zero (c : Params) (e : Nat) :
    chooseModulus c (2 ^ e) 0 = selectModulus c.primeLimit (2 ^ e) := by
  simp [chooseModulus, Int.toNat_pow_of_nonneg]

theorem chooseModulus_of_pass {c : Params} {n p : Int} (hform : (p - 1) % n = 0)
    (hprime : isPrime c.primeLimit p = true) : chooseModulus c n p = .ok p := by
  have hne : p ≠ 0 := by rintro rfl; simp [isPrime] at hprime
  rw [chooseModulus, if_neg hne, if_pos ⟨hform, hprime⟩]

theorem chooseModulus_of_fail {c : Params} {n psel : Int} (hpsel : psel ≠ 0)
    (hfail : (psel - 1) % n ≠ 0 ∨ isPrime c.primeLimit psel = false) :
    chooseModulus c n psel = .error .invalidSize := by
  rw [chooseModulus, if_neg hpsel, if_neg]
  rintro ⟨hform, hprime⟩
  simp [hform, hprime] at hfail

/-- A prime in bounds that is 1 modulo the length passes as the modulus, named or as the least candidate
(R125, R126). -/
theorem chooseModulus_of_prime {c : Params} {e : Nat} {p psel : Int}
    (hprime : isPrime c.primeLimit p = true) (hmax : p ≤ modMax) (hform : p % 2 ^ e = 1)
    (hsel : psel = p ∨ (psel = 0 ∧ ∀ k : Nat, 1 ≤ k → (2 ^ e * k + 1 : Int) < p →
      isPrime c.primeLimit (2 ^ e * k + 1) = false)) : chooseModulus c (2 ^ e) psel = .ok p := by
  obtain rfl | ⟨rfl, hleast⟩ := hsel
  · exact chooseModulus_of_pass (Int.emod_eq_zero_of_dvd (Int.dvd_self_sub_of_emod_eq hform)) hprime
  obtain ⟨P, hP, rfl⟩ := exists_prime_of_isPrime hprime
  rw [chooseModulus_zero, selectModulus_ok_iff Nat.one_le_two_pow]
  have hdiv : 2 ^ e * (P / 2 ^ e) + 1 = P := by
    have hmod : P % 2 ^ e = 1 := by exact_mod_cast hform
    rw [← hmod, Nat.div_add_mod]
  have hquot : P / 2 ^ e ≠ 0 := fun h0 => hP.ne_one (by rw [← hdiv, h0]; rfl)
  exact ⟨⟨P / 2 ^ e, Nat.pos_of_ne_zero hquot, by exact_mod_cast hdiv.symm⟩, hprime, hmax, by exact_mod_cast hleast⟩

/-- Settles O34: each check that fails ends `planInit` with its error, and the command only raises it. -/
theorem twidReportsErrorsInOrder : Obligations.TwidReportsErrorsInOrder := by
  refine fun s slot => ⟨exec_twid_badSelect, fun hslot hlength => ?length, fun e hslot he (hn : s.a = _) hmax => ?_⟩
  case length =>
    refine exec_twid_error hslot (planInit_invalidSize (Bool.eq_false_iff.2 fun hok => ?_))
    obtain ⟨hlow, hhigh, hpow⟩ := lengthOk_iff.1 hok
    obtain hlt | hgt | hne := hlength
    · exact absurd hlow (not_le.2 hlt)
    · exact absurd hhigh (not_le.2 hgt)
    · exact hne (exists_pow_of_isPow2 hpow)
  have hok : lengthOk s.params s.a = true := hn ▸ lengthOk_two_pow he (hn ▸ hmax)
  refine ⟨fun hout => ?badOperand, fun (hm : s.m = 0) hnone => ?noModulus, fun hlow hhigh hfail => ?invalidSize⟩
  case badOperand => exact exec_twid_error hslot (planInit_badOperand hok hout)
  case noModulus =>
    refine exec_twid_error (e := .noModulus) hslot (planInit_of_noModulus hok hm.ge (hm.trans_le (by decide)) ?_)
    rw [hn, hm, chooseModulus_zero, selectModulus_noModulus_iff Nat.one_le_two_pow]
    exact_mod_cast hnone
  case invalidSize =>
    rw [← hn] at hfail
    exact exec_twid_error hslot (planInit_of_noModulus hok hlow.le hhigh (chooseModulus_of_fail hlow.ne' hfail))

/-! ### The computations of `TWID` -/

/-- `g` is the least primitive root of `n` (R120). -/
structure LeastPrimitiveRoot (n g : Nat) : Prop where
  two_le : 2 ≤ g
  lt : g < n
  order : orderOf (g : ZMod n) = n - 1
  least : ∀ b : Nat, 2 ≤ b → b < g → orderOf (b : ZMod n) ≠ n - 1

/-- Of a prime, the least candidate that passes R120's test is the least primitive root. -/
theorem LeastPassing.leastPrimitiveRoot {P g : Nat} (h : LeastPassing P g) (hP : Nat.Prime P) (h3 : 3 ≤ P)
    (hmax : P ≤ 2 ^ 62 - 1) : LeastPrimitiveRoot P g := by
  obtain ⟨hlow, -, hpass, hleast⟩ := h
  obtain ⟨c, hc2, hcP, hc⟩ := exists_passesRootTest_lt hP h3 hmax
  have hgc : g ≤ c := le_of_not_gt fun hcg => hleast c hc2 hcg hc
  have horder {b : Nat} (hb : 2 ≤ b) (hbP : b < P) : PassesRootTest P b ↔ orderOf (b : ZMod P) = P - 1 :=
    passesRootTest_iff_orderOf hP h3 (by omega) hbP
  exact ⟨hlow, by omega, (horder hlow (by omega)).1 hpass,
    fun b hb hbg hob => hleast b hb hbg ((horder hb (by omega)).2 hob)⟩

theorem LeastPrimitiveRoot.ne_zero {P g : Nat} (h : LeastPrimitiveRoot P g) : (g : ZMod P) ≠ 0 := fun h0 =>
  Nat.not_dvd_of_pos_of_lt (by have := h.two_le; omega) h.lt ((ZMod.natCast_eq_zero_iff g P).1 h0)

/-- Modulo a prime, what is not 0 has an inverse (R92). -/
theorem exists_modInv_of_ne_zero {P : Nat} (hP : Nat.Prime P) {a : Int} (ha : (a : ZMod P) ≠ 0) :
    ∃ v, modInv a P = .ok v := by
  have hgcd : Int.gcd (a % P) P = 1 := by
    rwa [← Int.isCoprime_iff_gcd_eq_one, isCoprime_comm,
      (Nat.prime_iff_prime_int.1 hP).irreducible.coprime_iff_not_dvd,
      ← ZMod.intCast_zmod_eq_zero_iff_dvd, ZMod.intCast_mod]
  obtain ⟨v, hv, -⟩ := (modInvIsTheUniqueInverse a P (by exact_mod_cast hP.one_le)).1 hgcd
  exact ⟨v, hv⟩

/-- A table of two entries or more starts from one root. -/
theorem powersFrom_root_inj {v w p : Int} {k : Nat} (hk : 2 ≤ k) (hp : 1 < p) (hv : 0 ≤ v ∧ v < p)
    (hw : 0 ≤ w ∧ w < p) (h : powersFrom v p k 1 = powersFrom w p k 1) : v = w := by
  have entry {u : Int} (hu : 0 ≤ u ∧ u < p) : (powersFrom u p k 1).getD 1 0 = u := by
    rw [powersFrom_getD u p k 1 1 hk (Int.emod_eq_of_lt (by omega) hp), one_mul, pow_one, Int.emod_eq_of_lt hu.1 hu.2]
  rw [← entry hv, h, entry hw]

/-- What `planFor` answers when none of its computations fails (R126). -/
theorem planFor_eq {c : Params} {n p g winv ninv : Int} (hg : primitiveRoot c.primeLimit p.toNat = .ok g)
    (hwinv : modInv (powMod g ((p - 1) / n).toNat p) p = .ok winv) (hninv : modInv n p = .ok ninv) :
    planFor c n p = .ok
      { p := p, ninv := ninv, t := powersFrom (powMod g ((p - 1) / n).toNat p) p n.toNat 1,
        it := powersFrom winv p n.toNat 1 } := by
  simp only [planFor, hg, hwinv, hninv]

/-- A prime that is 1 modulo a length of 2 or more is odd. -/
theorem three_le_of_emod_two_pow {P e : Nat} (hP : Nat.Prime P) (hform : (P : Int) % 2 ^ (e + 1) = 1) : 3 ≤ P := by
  have h1 := hP.one_lt
  have hdvd : (2 : Int) ∣ P - 1 := (dvd_pow_self 2 e.succ_ne_zero).trans (Int.dvd_self_sub_of_emod_eq hform)
  omega

section
variable {c : Params} {n : Int} {e P : Nat} (hlimit : 2 ^ 31 ≤ c.primeLimit) (hn : n = 2 ^ (e + 1)) (hP : Nat.Prime P)
  (hmax : P ≤ 2 ^ 62 - 1) (hform : (P : Int) % n = 1)
include hlimit hn hP hmax hform

theorem primitiveRoot_leastPrimitiveRoot :
    ∃ g : Nat, primitiveRoot c.primeLimit P = .ok g ∧ LeastPrimitiveRoot P g := by
  obtain ⟨g, hroot, hg⟩ := primitiveRoot_ok hlimit hP.two_le hmax
  exact ⟨g, hroot, hg.leastPrimitiveRoot hP (three_le_of_emod_two_pow hP (hn ▸ hform)) hmax⟩

/-- For a prime that is 1 modulo the length no computation of `TWID` fails: neither the root nor the length is 0 modulo
the prime. -/
theorem exists_planFor_ok : ∃ d, planFor c n P = .ok d := by
  have := Fact.mk hP
  obtain ⟨g, hroot, hg⟩ := primitiveRoot_leastPrimitiveRoot hlimit hn hP hmax hform
  have hw : ((powMod g (((P : Int) - 1) / n).toNat P : Int) : ZMod P) ≠ 0 := by
    rw [powMod_eq, ZMod.intCast_mod, Int.cast_pow, Int.cast_natCast]
    exact pow_ne_zero _ hg.ne_zero
  have hlength : (n : ZMod P) ≠ 0 := by
    rw [hn, Int.cast_pow]
    refine pow_ne_zero _ fun h0 => ?_
    have h3 := three_le_of_emod_two_pow hP (hn ▸ hform)
    exact Nat.not_dvd_of_pos_of_lt two_pos h3 ((ZMod.natCast_eq_zero_iff 2 P).1 (by exact_mod_cast h0))
  obtain ⟨winv, hwinv⟩ := exists_modInv_of_ne_zero hP hw
  obtain ⟨ninv, hninv⟩ := exists_modInv_of_ne_zero hP hlength
  exact ⟨_, planFor_eq (by rwa [Int.toNat_natCast]) hwinv hninv⟩

/-- The root of a plan is the power of the least primitive root that R126 asks for. -/
theorem planFor_root {w winv : Int} {d : PlanData} (h : planFor c n P = .ok d) (hd : PlanData.Ok c n d w winv) :
    d.p = P ∧ ∃ g : Nat, LeastPrimitiveRoot P g ∧ w = (g : Int) ^ (((P : Int) - 1) / n).toNat % P := by
  obtain ⟨g, hroot, hg⟩ := primitiveRoot_leastPrimitiveRoot hlimit hn hP hmax hform
  obtain ⟨_, _, _, hroot', -, -, rfl⟩ := planFor_ok h
  rw [Int.toNat_natCast, hroot] at hroot'
  cases hroot'
  have hn2 : 2 ≤ n.toNat := by
    have : (2 : Int) ≤ n := hn ▸ le_self_pow₀ (by omega) e.succ_ne_zero
    omega
  have hrange : 0 ≤ powMod g (((P : Int) - 1) / n).toNat P ∧ powMod g (((P : Int) - 1) / n).toNat P < P := by
    have := hP.pos
    rw [powMod_eq]
    exact ⟨Int.emod_nonneg _ (by omega), Int.emod_lt_of_pos _ (by omega)⟩
  refine ⟨rfl, g, hg, ?_⟩
  rw [← powMod_eq]
  exact (powersFrom_root_inj hn2 hd.one_lt hrange hd.root hd.table).symm

end

/-- For a prime in bounds that is 1 modulo the length, `TWID` computes a plan whose root is the one R126 asks for. -/
theorem planFor_of_prime {c : Params} {n p : Int} {e : Nat} (hlimit : 2 ^ 31 ≤ c.primeLimit) (hn : n = 2 ^ (e + 1))
    (hprime : isPrime c.primeLimit p = true) (hmax : p ≤ modMax) (hform : p % n = 1) :
    ∃ d w winv, ∃ g : Nat, planFor c n p = .ok d ∧ d.p = p ∧ PlanData.Ok c n d w winv ∧
      LeastPrimitiveRoot p.toNat g ∧ w = (g : Int) ^ ((p - 1) / n).toNat % p := by
  obtain ⟨P, hP, rfl⟩ := exists_prime_of_isPrime hprime
  have hmax' : P ≤ 2 ^ 62 - 1 := by unfold modMax at hmax; omega
  obtain ⟨d, hplan⟩ := exists_planFor_ok hlimit hn hP hmax' hform
  obtain ⟨w, winv, hd⟩ := planFor_planDataOk hn hprime hmax hform hplan
  obtain ⟨hp, g, hg, hw⟩ := planFor_root hlimit hn hP hmax' hform hplan hd
  exact ⟨d, w, winv, g, hplan, hp, hd, hg, hw⟩

/-! ### The store of `TWID` -/

theorem storePlan_plan_same (s : State) (slot : Nat) (n : Int) (d : PlanData) :
    (storePlan s slot n d).plan slot = { valid := true, n := wrap64 n, p := wrap64 d.p, ninv := wrap64 d.ninv } :=
  (storePlan_plan s slot n d slot).trans (if_pos rfl)

section
variable {s : State} {slot : Nat} {n w winv : Int} {d : PlanData} (h : PlanData.Ok s.params n d w winv)
include h

theorem PlanData.Ok.lengthInverse_pos : 1 ≤ d.ninv := by
  obtain ⟨h0, -, hone⟩ := h.lengthInverse
  by_contra hlt
  simp [show d.ninv = 0 by omega] at hone

/-- A plan's prime and the inverse of its length read as they were computed, for both are in `[0, MOD_MAX]`. -/
theorem PlanData.Ok.sint_wrap64_moduli : sint (wrap64 d.p) = d.p ∧ sint (wrap64 d.ninv) = d.ninv := by
  have h1 := h.one_lt
  obtain ⟨hninv, hninvp, -⟩ := h.lengthInverse
  exact ⟨sint_wrap64_of_le_modMax (by omega) h.modulusHigh,
    sint_wrap64_of_le_modMax hninv (hninvp.le.trans h.modulusHigh)⟩

/-- A plan leaves alone the words past its length and those outside the tables of its slot. -/
theorem storePlan_word_other {a : Addr}
    (ha : ¬ ((a.space = .tw ∨ a.space = .itw) ∧ a.hi = slot ∧ a.lo < n.toNat)) :
    (storePlan s slot n d).word a = s.word a := by
  by_contra hne
  obtain ⟨hspace, hhi, hlo⟩ := storePlan_word_ne hne
  rw [h.table, h.inverseTable, powersFrom_length, powersFrom_length, max_self] at hlo
  exact ha ⟨hspace, hhi, hlo⟩

end

/-- Settles O33: the modulus is chosen (`chooseModulus_of_prime`), the plan computed (`planFor_of_prime`), and what is
stored reads as it was computed (`sint_wrap64_moduli`, `storePlan_tables`). -/
theorem twidBuildsThePlan : Obligations.TwidBuildsThePlan := by
  rintro s slot (_ | e) p hwf hslot he (hn : s.a = _) hnmax hprime hmax hform hsel
  · omega
  obtain ⟨-, -, -, -, -, -, -, hlimit, -⟩ := hwf
  obtain ⟨d, w, winv, g, hplan, rfl, hd, ⟨hg2, hgp, horder, hleast⟩, hw⟩ :=
    planFor_of_prime hlimit hn hprime hmax (hn ▸ hform)
  have h1 := hd.one_lt
  have hm : 0 ≤ s.m ∧ s.m ≤ modMax := by
    obtain hm | ⟨hm, -⟩ : s.m = d.p ∨ s.m = 0 ∧ _ := hsel <;> unfold modMax <;> omega
  have hinit : planInit s.params s.a s.m = .ok d :=
    (planInit_of_modulus (hn ▸ lengthOk_two_pow he (hn ▸ hnmax)) hm.1 hm.2
      (hn ▸ chooseModulus_of_prime hprime hmax hform hsel)).trans hplan
  have hlength : s.a.toNat = 2 ^ (e + 1) := by rw [hn, Int.toNat_pow_of_nonneg (by omega)]; rfl
  obtain ⟨hp, hninv⟩ := hd.sint_wrap64_moduli
  obtain ⟨-, hninvp, hlengthInverse⟩ := hd.lengthInverse
  obtain ⟨hwinv, hwinvp, hinverse⟩ := hd.inverse
  refine ⟨_, g, w, winv, exec_twid_ok hslot hinit, rfl, ?_⟩
  simp only [State.setStatus_plan, storePlan_plan_same, hp, hninv, ← hn]
  refine ⟨trivial, wrap64_sint _, trivial, mul_comm s.a _ ▸ hlengthInverse, hd.lengthInverse_pos, hninvp, hg2, by omega,
    horder, hleast, hw, hwinv, hwinvp, hinverse, fun i hi => storePlan_tables hd (hlength ▸ hi), fun k hk => ?_,
    fun a ha => storePlan_word_other hd (hlength ▸ ha)⟩
  rw [storePlan_plan, if_neg hk]

end Sys2Proof.Machine
end

section
/-! PROOFS. O35: the tables of a slot that holds a plan (43_plan_init.md R127). -/

namespace Sys2Proof.Machine

/-- A square root of 1 modulo a prime that is not 1 is `p - 1`. -/
theorem emod_eq_pred_of_sq {P : Nat} (hP : Nat.Prime P) {x : Int} (hsq : x ^ 2 % P = 1) (hne : x % P ≠ 1) :
    x % P = P - 1 := by
  have h1 := hP.one_lt
  have hdvd : (P : Int) ∣ (x - 1) * (x + 1) := by
    rw [show (x - 1) * (x + 1) = x ^ 2 - 1 by ring]
    exact Int.dvd_self_sub_of_emod_eq hsq
  have remainder {y : Int} (hlow : 0 ≤ y) (hhigh : y < P) (h : (P : Int) ∣ x - y) : x % P = y :=
    (Int.modEq_of_dvd h).eq.symm.trans (Int.emod_eq_of_lt hlow hhigh)
  obtain hminus | hplus := (Nat.prime_iff_prime_int.1 hP).dvd_or_dvd hdvd
  · exact absurd (remainder (by omega) (by omega) hminus) hne
  · refine remainder (by omega) (by omega) ?_
    rw [show x - ((P : Int) - 1) = x + 1 - P by ring]
    exact dvd_sub_self_right.2 hplus

/-- A power of an `n`-th root of 1 depends on the exponent modulo `n` only. -/
theorem pow_modEq_pow_mod {w p : Int} {n : Nat} (hroot : w ^ n ≡ 1 [ZMOD p]) (k : Nat) : w ^ k ≡ w ^ (k % n) [ZMOD p] :=
  calc w ^ k = w ^ (k % n) * (w ^ n) ^ (k / n) := by rw [← pow_mul, ← pow_add, Nat.mod_add_div]
    _ ≡ w ^ (k % n) * 1 ^ (k / n) [ZMOD p] := (hroot.pow _).mul_left _
    _ = w ^ (k % n) := by rw [one_pow, mul_one]

/-- The `i`-th power of the inverse of an `n`-th root of 1 is the `(n - i)`-th power of the root. -/
theorem inverse_pow_modEq {w winv p : Int} {n i : Nat} (hroot : w ^ n ≡ 1 [ZMOD p]) (hinverse : w * winv ≡ 1 [ZMOD p])
    (hi : i ≤ n) : winv ^ i ≡ w ^ (n - i) [ZMOD p] :=
  calc winv ^ i = winv ^ i * 1 := (mul_one _).symm
    _ ≡ winv ^ i * w ^ n [ZMOD p] := hroot.symm.mul_left _
    _ = (w * winv) ^ i * w ^ (n - i) := by rw [← pow_mul_pow_sub w hi, mul_pow]; ring
    _ ≡ 1 ^ i * w ^ (n - i) [ZMOD p] := (hinverse.pow i).mul_right _
    _ = w ^ (n - i) := by rw [one_pow, one_mul]

section
variable {s : State} {slot : Nat}

/-- The length of a plan is even. -/
theorem PlanOk.two_mul_half (h : PlanOk s slot) : 2 * (s.planN slot / 2) = s.planN slot ∧ 0 < s.planN slot / 2 := by
  obtain ⟨e, he⟩ := h.lengthPow2
  have hlow := h.lengthLow
  obtain ⟨e, rfl⟩ := Nat.exists_eq_succ_of_ne_zero (show e ≠ 0 by rintro rfl; omega)
  have hn : s.planN slot = sint (s.plan slot).n := Int.toNat_of_nonneg (by omega)
  rw [pow_succ] at he
  omega

theorem PlanOk.one_emod (h : PlanOk s slot) : 1 % s.planP slot = 1 := by
  obtain ⟨P, hP, hp⟩ := exists_prime_of_isPrime h.prime
  have := hP.one_lt
  exact Int.emod_eq_of_lt (by omega) (by omega)

theorem PlanOk.tw_half (h : PlanOk s slot) : sint (s.tw slot (s.planN slot / 2)) = s.planP slot - 1 := by
  obtain ⟨P, hP, hp⟩ := exists_prime_of_isPrime h.prime
  obtain ⟨hhalf, hpos⟩ := h.two_mul_half
  have hpower := h.rootPower
  have hne := h.rootOrder _ (by omega) hpos
  rw [← hhalf, mul_comm, pow_mul] at hpower
  rw [h.table _ (by omega)]
  rw [hp] at hpower hne ⊢
  exact emod_eq_pred_of_sq hP hpower hne

theorem PlanOk.itw_eq_tw (h : PlanOk s slot) {i : Nat} (hi : i < s.planN slot) :
    s.itw slot i = s.tw slot ((s.planN slot - i) % s.planN slot) := by
  have hroot : sint (s.tw slot 1) ^ s.planN slot ≡ 1 [ZMOD s.planP slot] := h.rootPower.trans h.one_emod.symm
  have hinverse : sint (s.tw slot 1) * sint (s.itw slot 1) ≡ 1 [ZMOD s.planP slot] :=
    h.inverseRoot.trans h.one_emod.symm
  apply sint_inj
  rw [h.inverseTable i hi, h.table _ (Nat.mod_lt _ (by omega))]
  exact (inverse_pow_modEq hroot hinverse hi.le).trans (pow_modEq_pow_mod hroot _)

end

/-- Settles O35: `w^(N/2)` squares to 1 and is not 1 (`PlanOk.tw_half`), and `w⁻¹` to the `i` is `w` to the `N - i`
(`PlanOk.itw_eq_tw`). -/
theorem planTablesAreEachOthersMirror : Obligations.PlanTablesAreEachOthersMirror :=
  fun _ _ h => ⟨h.tw_half, fun _ hi => h.itw_eq_tw hi⟩

end Sys2Proof.Machine
end

section
/-! PROOFS. O37, O39, O40: the reversed index and `BITREV` (44_transforms.md R140 to R142). -/

namespace Sys2Proof.Machine

/-! ### The reversed index -/

theorem bitRevIndex_succ (i e : Nat) : bitRevIndex i (e + 1) = 2 * bitRevIndex i e + i / 2 ^ e % 2 := rfl

theorem bitRevIndex_lt (i e : Nat) : bitRevIndex i e < 2 ^ e := by
  induction e with
  | zero => exact Nat.two_pow_pos 0
  | succ e ih => rw [bitRevIndex_succ]; omega

theorem testBit_bitRevIndex (i : Nat) {e t : Nat} (ht : t < e) :
    (bitRevIndex i e).testBit t = i.testBit (e - 1 - t) := by
  induction e generalizing t with
  | zero => omega
  | succ e ih =>
    rw [bitRevIndex_succ]
    cases t with
    | zero =>
      rw [Nat.testBit_zero, Nat.testBit_eq_decide_div_mod_eq, Nat.mul_add_mod, Nat.mod_mod]
      rfl
    | succ t =>
      rw [Nat.testBit_succ, Nat.mul_add_div two_pos, Nat.div_eq_of_lt (Nat.mod_lt _ two_pos), Nat.add_zero,
        ih (by omega)]
      congr 1
      omega

theorem bitRevIndex_bitRevIndex {i e : Nat} (hi : i < 2 ^ e) : bitRevIndex (bitRevIndex i e) e = i := by
  refine Nat.eq_of_testBit_eq fun t => ?_
  obtain ht | ht := Nat.lt_or_ge t e
  · rw [testBit_bitRevIndex _ ht, testBit_bitRevIndex _ (by omega)]
    congr 1
    omega
  · have hpow : 2 ^ e ≤ 2 ^ t := Nat.pow_le_pow_right two_pos ht
    rw [Nat.testBit_lt_two_pow ((bitRevIndex_lt _ e).trans_le hpow), Nat.testBit_lt_two_pow (hi.trans_le hpow)]

/-- Settles O37: the bits of the reversed index (`testBit_bitRevIndex`), read twice. -/
theorem bitRevIndexReversesTheBits : Obligations.BitRevIndexReversesTheBits :=
  fun i e hi => ⟨bitRevIndex_lt i e, fun _ ht => testBit_bitRevIndex i ht, bitRevIndex_bitRevIndex hi⟩

/-! ### The permuted list -/

theorem bitReverse_getD {α : Type} (z : α) (x : List α) {e i : Nat} (hi : i < 2 ^ e) :
    (bitReverse z (2 ^ e) x).getD i z = x.getD (bitRevIndex i e) z := by
  simp [bitReverse, Nat.log2_two_pow, hi]

theorem seqWords_getD (s : State) (b : Nat) {n i : Nat} (hi : i < n) : (s.seqWords b n).getD i 0 = s.seq b i := by
  simp [State.seqWords, hi]

/-! ### A store into a buffer -/

/-- The command that leads from `s` to `t` succeeds, writes the words `v` to elements `0 .. n-1` of buffer `dst`, and
nothing else. -/
structure StoresSeq (s t : State) (dst n : Nat) (v : Nat → Word) : Prop where
  frame : t = { s with mem := t.mem, status := 0x01 }
  seq : ∀ i, i < n → t.seq dst i = v i
  word : ∀ a : Addr, ¬ (a.space = .seq ∧ a.hi = dst ∧ a.lo < n) → t.word a = s.word a

theorem storesSeq_storeSeq (s : State) (dst : Nat) (ws : List Word) :
    StoresSeq s ((storeSeq s dst ws).setStatus (statusWord 0)) dst ws.length (ws.getD · 0) where
  frame := rfl
  seq i hi := (storeSeq_word s dst ws ⟨.seq, dst, i⟩).trans (if_pos ⟨rfl, rfl, hi⟩)
  word a ha := (storeSeq_word s dst ws a).trans (if_neg ha)

section
variable {s t : State} {dst n : Nat} {v : Nat → Word} (h : StoresSeq s t dst n v)
include h

theorem StoresSeq.opa : t.opa = s.opa := by rw [h.frame]
theorem StoresSeq.params : t.params = s.params := by rw [h.frame]
theorem StoresSeq.plan (slot : Nat) : t.plan slot = s.plan slot := by rw [h.frame]; rfl
theorem StoresSeq.tw (slot i : Nat) : t.tw slot i = s.tw slot i := h.word ⟨.tw, slot, i⟩ (by simp)
theorem StoresSeq.itw (slot i : Nat) : t.itw slot i = s.itw slot i := h.word ⟨.itw, slot, i⟩ (by simp)
theorem StoresSeq.planN (slot : Nat) : t.planN slot = s.planN slot := by rw [h.frame]; rfl
theorem StoresSeq.planP (slot : Nat) : t.planP slot = s.planP slot := by rw [h.frame]; rfl
theorem StoresSeq.planNinv (slot : Nat) : t.planNinv slot = s.planNinv slot := by rw [h.frame]; rfl

/-- A store into a buffer leaves every plan a plan (R28). -/
theorem StoresSeq.planOk {slot : Nat} (hs : PlanOk s slot) : PlanOk t slot :=
  hs.congr h.params (h.plan slot) fun a ha _ => h.word a (by rintro ⟨hseq, -⟩; simp [hseq] at ha)

end

/-! ### How `BITREV` ends -/

section
variable {s : State} {dst : Nat}

theorem exec_bitrev_badSelect (hdst : s.params.nbuf ≤ dst) : exec (.bitrev dst) s = .next (raise .badSelect s) :=
  congrArg (fun r => Host.Outcome.next (finish s r)) (if_neg (by omega))

theorem exec_bitrev_invalidSize (hdst : dst < s.params.nbuf)
    (hlength : ¬ (1 ≤ s.a ∧ s.a ≤ s.params.nmax ∧ isPow2 s.a = true)) :
    exec (.bitrev dst) s = .next (raise .invalidSize s) := by
  simp only [exec, execBitrev, if_pos hdst, if_neg hlength, finish_error]

theorem exec_bitrev_ok {e : Nat} (hdst : dst < s.params.nbuf) (hlength : s.a = 2 ^ e) (hmax : s.a ≤ s.params.nmax) :
    exec (.bitrev dst) s = .next ((storeSeq s dst (bitReverse 0 (2 ^ e) (s.seqWords dst (2 ^ e)))).setStatus
      (statusWord 0)) := by
  have hok : 1 ≤ s.a ∧ s.a ≤ s.params.nmax ∧ isPow2 s.a = true :=
    ⟨hlength ▸ one_le_pow₀ (by omega), hmax, hlength ▸ isPow2_two_pow e⟩
  have hn : s.a.toNat = 2 ^ e := by rw [hlength, Int.toNat_pow_of_nonneg (by omega)]; rfl
  simp only [exec, execBitrev, if_pos hdst, if_pos hok, hn, finish_ok]

/-- A successful `BITREV` (R141, R142). -/
theorem exec_bitrev_storesSeq {e : Nat} (hdst : dst < s.params.nbuf) (hlength : s.a = 2 ^ e)
    (hmax : s.a ≤ s.params.nmax) :
    ∃ t, exec (.bitrev dst) s = .next t ∧ StoresSeq s t dst (2 ^ e) fun i => s.seq dst (bitRevIndex i e) := by
  have h := storesSeq_storeSeq s dst (bitReverse 0 (2 ^ e) (s.seqWords dst (2 ^ e)))
  rw [bitReverse_length] at h
  refine ⟨_, exec_bitrev_ok hdst hlength hmax, h.frame, fun i hi => (h.seq i hi).trans ?_, h.word⟩
  rw [bitReverse_getD 0 _ hi, seqWords_getD s dst (bitRevIndex_lt i e)]

end

/-- Settles O39: `BITREV` stores the permuted words (`exec_bitrev_storesSeq`), or raises the error of its check. -/
theorem bitrevPermutesTheBuffer : Obligations.BitrevPermutesTheBuffer := by
  refine ⟨fun d hd => ?decodes, fun s dst => ⟨fun e hdst hlength hmax => ?reverses, ?badSelect, ?invalidSize⟩⟩
  case decodes =>
    have hencode : encode (.bitrev d) = BitVec.ofNat 64 (0x05 + d * 2 ^ 24) := rfl
    exact hencode ▸ decode_encode (i := .bitrev d) (by simpa [Instr.wf, fieldOk] using hd)
  case reverses =>
    obtain ⟨t, ht, hframe, hseq, hword⟩ := exec_bitrev_storesSeq hdst hlength hmax
    exact ⟨t, ht, hframe, hseq, hword⟩
  case badSelect => exact exec_bitrev_badSelect
  case invalidSize =>
    refine fun hdst hlength => exec_bitrev_invalidSize hdst ?_
    rintro ⟨hlow, hhigh, hpow⟩
    obtain hlt | hgt | hne := hlength
    · exact absurd hlow (not_le.2 hlt)
    · exact absurd hhigh (not_le.2 hgt)
    · exact hne (exists_pow_of_isPow2 hpow)

/-- Settles O40: the second `BITREV` reverses the reversed index again (`bitRevIndex_bitRevIndex`). -/
theorem bitrevTwiceRestoresTheBuffer : Obligations.BitrevTwiceRestoresTheBuffer := by
  intro s dst e hdst (hlength : s.a = 2 ^ e) (hmax : s.a ≤ _)
  obtain ⟨t, ht, hst⟩ := exec_bitrev_storesSeq hdst hlength hmax
  have hta : t.a = s.a := congrArg sint hst.opa
  obtain ⟨u, hu, htu⟩ := exec_bitrev_storesSeq (s := t) (hst.params ▸ hdst) (hta.trans hlength)
    (by rwa [hta, hst.params])
  refine ⟨t, u, ht, hu, fun a => ?_⟩
  by_cases ha : a.space = .seq ∧ a.hi = dst ∧ a.lo < 2 ^ e
  · obtain ⟨_, b, i⟩ := a
    obtain ⟨rfl, rfl, hi⟩ := ha
    calc u.seq b i = t.seq b (bitRevIndex i e) := htu.seq i hi
      _ = s.seq b (bitRevIndex (bitRevIndex i e) e) := hst.seq _ (bitRevIndex_lt i e)
      _ = s.seq b i := by rw [bitRevIndex_bitRevIndex hi]
  · rw [htu.word a ha, hst.word a ha]

end Sys2Proof.Machine
end

section
/-! PROOFS. O38, O41: the document's loops (44_transforms.md R141, R143). In both, every position of the buffer belongs
to one pass, which alone reads and writes it; so the loop leaves what each pass leaves in the positions it owns. -/

namespace Sys2Proof.Machine

/-! ### Loops whose passes own disjoint positions -/

theorem list_eq_of_getD {α : Type} {z : α} {x y : List α} (hlen : x.length = y.length)
    (h : ∀ q, q < y.length → x.getD q z = y.getD q z) : x = y := by
  refine List.ext_getElem hlen fun q hx hy => ?_
  rw [← List.getD_eq_getElem _ z hx, ← List.getD_eq_getElem _ z hy]
  exact h q hy

theorem getD_set {α : Type} (z : α) {x : List α} {i : Nat} (hi : i < x.length) (v : α) (q : Nat) :
    (x.set i v).getD q z = if q = i then v else x.getD q z := by
  obtain rfl | hne := eq_or_ne q i
  · simp [hi]
  · simp [hne, hne.symm]

/-- The passes `js` of a loop over a list, in which each position `q` is owned by one pass, `cell q`: a pass changes no
position but its own, and where these hold what they hold in `x`, it leaves in them what `y` holds. -/
structure OwnCells {α ι : Type} (z : α) (pass : List α → ι → List α) (cell : Nat → ι) (js : List ι)
    (x y : List α) : Prop where
  length : ∀ (w : List α) (j : ι), (pass w j).length = w.length
  other : ∀ (w : List α) (q : Nat), w.length = x.length → q < x.length → ∀ j ∈ js, cell q ≠ j →
    (pass w j).getD q z = w.getD q z
  own : ∀ (w : List α) (q : Nat), w.length = x.length → q < x.length → cell q ∈ js →
    (∀ r, r < x.length → cell r = cell q → w.getD r z = x.getD r z) → (pass w (cell q)).getD q z = y.getD q z

section
variable {α ι : Type} {z : α} {pass : List α → ι → List α} {cell : Nat → ι} {js : List ι} {x y : List α}

theorem OwnCells.of_append {js' : List ι} (h : OwnCells z pass cell (js ++ js') x y) : OwnCells z pass cell js x y where
  length := h.length
  other w q hw hq j hj := h.other w q hw hq j (List.mem_append_left js' hj)
  own w q hw hq hcell := h.own w q hw hq (List.mem_append_left js' hcell)

/-- After some of the passes, each made once, their positions hold what `y` does and all others what `x` does. -/
theorem OwnCells.foldl_getD (h : OwnCells z pass cell js x y) (hjs : js.Nodup) :
    (js.foldl pass x).length = x.length ∧ ∀ q, q < x.length →
      (cell q ∈ js → (js.foldl pass x).getD q z = y.getD q z) ∧
      (cell q ∉ js → (js.foldl pass x).getD q z = x.getD q z) := by
  induction js using List.reverseRecOn with
  | nil => exact ⟨rfl, fun q _ => ⟨fun hq => absurd hq List.not_mem_nil, fun _ => rfl⟩⟩
  | append_singleton js j ih =>
    obtain ⟨hjs, -, hdisjoint⟩ := List.nodup_append.1 hjs
    have hj : j ∉ js := fun hmem => hdisjoint j hmem j List.mem_cons_self rfl
    obtain ⟨hlen, hfold⟩ := ih h.of_append hjs
    rw [List.foldl_append, List.foldl_cons, List.foldl_nil]
    refine ⟨(h.length _ j).trans hlen, fun q hq => ?_⟩
    obtain rfl | hne := eq_or_ne (cell q) j
    · refine ⟨fun hmem => h.own _ q hlen hq hmem fun r hr hrq => (hfold r hr).2 (hrq ▸ hj), fun hn => ?_⟩
      exact absurd List.mem_concat_self hn
    · rw [h.other _ q hlen hq j List.mem_concat_self hne, List.mem_append, List.mem_singleton, or_iff_left hne]
      exact hfold q hq

/-- A loop whose passes own every position, each pass made once, turns `x` into `y`. -/
theorem OwnCells.foldl_eq (h : OwnCells z pass cell js x y) (hjs : js.Nodup) (hlen : y.length = x.length)
    (hcell : ∀ q, q < x.length → cell q ∈ js) : js.foldl pass x = y := by
  obtain ⟨hfold, hq⟩ := h.foldl_getD hjs
  exact list_eq_of_getD (hfold.trans hlen.symm) fun q hlt => (hq q (hlen ▸ hlt)).1 (hcell q (hlen ▸ hlt))

end

/-! ### The loop of swaps -/

theorem swapAt_getD {α : Type} (z : α) {x : List α} {i j : Nat} (hi : i < x.length) (hj : j < x.length) (q : Nat) :
    (swapAt z x i j).getD q z = if q = j then x.getD i z else if q = i then x.getD j z else x.getD q z := by
  rw [swapAt, getD_set z (by rwa [List.length_set]), getD_set z hi]

@[simp] theorem swapAt_length {α : Type} (z : α) (x : List α) (i j : Nat) : (swapAt z x i j).length = x.length := by
  simp [swapAt]

/-- One pass of the loop of R141. -/
def swapPass {α : Type} (z : α) (e : Nat) (x : List α) (i : Nat) : List α :=
  if i < bitRevIndex i e then swapAt z x i (bitRevIndex i e) else x

/-- The pass of R141 that moves index `q` is that of the lesser of `q` and its reverse. -/
theorem swapPass_ownCells {α : Type} (z : α) {e : Nat} {x : List α} (hx : x.length = 2 ^ e) :
    OwnCells z (swapPass z e) (fun q => min q (bitRevIndex q e)) (List.range (2 ^ e)) x (bitReverse z (2 ^ e) x) where
  length w i := by
    rw [swapPass]
    split_ifs <;> simp
  other w q hw hq i hi hne := by
    rw [hx] at hw hq
    have hr := bitRevIndex_lt i e
    have hinv := bitRevIndex_bitRevIndex (List.mem_range.1 hi)
    rw [swapPass]
    split_ifs with hlt
    · rw [swapAt_getD z (by omega) (by omega), if_neg, if_neg] <;> rintro rfl <;> omega
    · rfl
  own w q hw hq _ hcell := by
    rw [hx] at hw hq
    have hr := bitRevIndex_lt q e
    have hinv := bitRevIndex_bitRevIndex hq
    have hq' := hcell q (by omega) rfl
    have hr' := hcell (bitRevIndex q e) (by omega) (by rw [hinv, min_comm])
    rw [bitReverse_getD z x hq, swapPass, ← hr']
    obtain hlt | heq | hgt := Nat.lt_trichotomy q (bitRevIndex q e)
    · rw [min_eq_left hlt.le, if_pos hlt, swapAt_getD z (by omega) (by omega), if_neg hlt.ne, if_pos rfl]
    · rw [← heq, min_self, if_neg (by omega)]
    · rw [min_eq_right hgt.le, hinv, if_pos hgt, swapAt_getD z (by omega) (by omega), if_pos rfl]

/-- Settles O38: each pair of an index and its reverse is swapped once, at its lesser member (`swapPass_ownCells`). -/
theorem swapLoopIsThePermutation : Obligations.SwapLoopIsThePermutation := by
  intro e x hx
  rw [bitReverseBySwaps, Nat.log2_two_pow]
  refine (swapPass_ownCells 0 hx).foldl_eq List.nodup_range (by rw [bitReverse_length, hx]) fun q hq => ?_
  exact List.mem_range.2 ((Nat.min_le_left _ _).trans_lt (hx ▸ hq))

/-! ### The loops over twiddle slots and groups -/

section
variable {t : Nat → Int} {n h a g : Nat} {p : Int} {x : List Int}

theorem stage_getD {m j : Nat} (hj : j < n) : (stage t n p m x).getD j 0 =
    if j % m < m / 2 then (x.getD j 0 + modMul (x.getD (j + m / 2) 0) (t (j % m * (n / m))) p) % p
    else (x.getD (j - m / 2) 0 - modMul (x.getD j 0) (t ((j - m / 2) % m * (n / m))) p) % p := by
  rw [stage, List.getD_eq_getElem?_getD, List.getElem?_map, List.getElem?_range hj]
  rfl

/-- The lower element of pair `a` of group `g` (R144), where `h` is half the span. -/
theorem stage_getD_low (ha : a < h) (hn : a + g * (2 * h) < n) :
    (stage t n p (2 * h) x).getD (a + g * (2 * h)) 0 =
      (x.getD (a + g * (2 * h)) 0 + modMul (x.getD (a + g * (2 * h) + h) 0) (t (a * (n / (2 * h)))) p) % p := by
  have hmod : (a + g * (2 * h)) % (2 * h) = a := by rw [Nat.add_mul_mod_self_right, Nat.mod_eq_of_lt (by omega)]
  rw [stage_getD hn, hmod, Nat.mul_div_cancel_left h two_pos, if_pos ha]

/-- The upper element of pair `a` of group `g` (R144). -/
theorem stage_getD_high (ha : a < h) (hn : a + g * (2 * h) + h < n) :
    (stage t n p (2 * h) x).getD (a + g * (2 * h) + h) 0 =
      (x.getD (a + g * (2 * h)) 0 - modMul (x.getD (a + g * (2 * h) + h) 0) (t (a * (n / (2 * h)))) p) % p := by
  have hlow : (a + g * (2 * h)) % (2 * h) = a := by rw [Nat.add_mul_mod_self_right, Nat.mod_eq_of_lt (by omega)]
  have hhigh : (a + g * (2 * h) + h) % (2 * h) = a + h := by
    rw [Nat.add_right_comm, Nat.add_mul_mod_self_right, Nat.mod_eq_of_lt (by omega)]
  rw [stage_getD hn, hhigh, Nat.mul_div_cancel_left h two_pos, if_neg (by omega), Nat.add_sub_cancel, hlow]

@[simp] theorem butterflyPair_length (tw p : Int) (h : Nat) (x : List Int) (j : Nat) :
    (butterflyPair tw p h x j).length = x.length := by
  simp [butterflyPair]

theorem butterflyPair_getD {tw : Int} {j : Nat} (hj : j + h < x.length) (q : Nat) :
    (butterflyPair tw p h x j).getD q 0 =
      if q = j + h then (x.getD j 0 - modMul (x.getD (j + h) 0) tw p) % p
      else if q = j then (x.getD j 0 + modMul (x.getD (j + h) 0) tw p) % p else x.getD q 0 := by
  rw [butterflyPair, getD_set 0 (by rwa [List.length_set]), getD_set 0 (by omega)]

/-- The pair of a position (R144): its twiddle slot and its group. -/
def pairOf (h q : Nat) : Nat × Nat := (q % h, q / h / 2)

theorem pairOf_eq_iff (ha : a < h) {q : Nat} :
    pairOf h q = (a, g) ↔ q = a + g * (2 * h) ∨ q = a + g * (2 * h) + h := by
  have hhalf (c : Nat) : q % h = a ∧ q / h = c ↔ q = a + h * c := by
    rw [and_comm, Nat.div_mod_unique (by omega), and_iff_left ha, eq_comm]
  rw [pairOf, Prod.mk.injEq, show q / h / 2 = g ↔ q / h = 2 * g ∨ q / h = 2 * g + 1 by omega, and_or_left, hhalf, hhalf,
    show h * (2 * g) = g * (2 * h) by ring, show h * (2 * g + 1) = g * (2 * h) + h by ring, Nat.add_assoc]

theorem pair_lt {c : Nat} (ha : a < h) (hg : g < c) : a + g * (2 * h) + h < c * (2 * h) := by
  have := Nat.mul_le_mul_right (2 * h) hg
  rw [Nat.succ_mul] at this
  omega

end

/-- One pass of the inner loop of R143: twiddle slot `a`, group `g`. -/
def butterflyPass (t : Nat → Int) (n : Nat) (p : Int) (h : Nat) (x : List Int) : Nat × Nat → List Int
  | (a, g) => butterflyPair (t (a * (n / (2 * h)))) p h x (a + g * (2 * h))

/-- The two positions of a pair belong to one pass, which leaves the stage's values in them (R144). -/
theorem butterflyPass_ownCells (t : Nat → Int) {c h : Nat} (p : Int) {x : List Int} (hx : x.length = c * (2 * h)) :
    OwnCells 0 (butterflyPass t (c * (2 * h)) p h) (pairOf h) (List.range h ×ˢ List.range c) x
      (stage t (c * (2 * h)) p (2 * h) x) where
  length w j := butterflyPair_length _ _ _ _ _
  other w q hw hq := by
    rintro ⟨a, g⟩ hj hne
    obtain ⟨ha, hg⟩ := List.pair_mem_product.1 hj
    rw [List.mem_range] at ha hg
    rw [Ne, pairOf_eq_iff ha, not_or] at hne
    obtain ⟨hlow, hhigh⟩ := hne
    rw [butterflyPass, butterflyPair_getD (by rw [hw, hx]; exact pair_lt ha hg), if_neg hhigh, if_neg hlow]
  own w q hw hq := by
    obtain ⟨⟨a, g⟩, hpair⟩ : ∃ j, pairOf h q = j := ⟨_, rfl⟩
    rw [hpair]
    intro hj hcell
    obtain ⟨ha, hg⟩ := List.pair_mem_product.1 hj
    rw [List.mem_range] at ha hg
    have hlt := pair_lt ha hg
    have hlow := hcell (a + g * (2 * h)) (by omega) ((pairOf_eq_iff ha).2 (.inl rfl))
    have hhigh := hcell (a + g * (2 * h) + h) (by omega) ((pairOf_eq_iff ha).2 (.inr rfl))
    rw [butterflyPass, butterflyPair_getD (by omega), hlow, hhigh]
    obtain rfl | rfl := (pairOf_eq_iff ha).1 hpair
    · rw [if_neg (by omega), if_pos rfl, stage_getD_low ha (by omega)]
    · rw [if_pos rfl, stage_getD_high ha hlt]

theorem stageByLoops_eq_foldl_product (t : Nat → Int) {c h : Nat} (hh : 0 < h) (p : Int) (x : List Int) :
    stageByLoops t (c * (2 * h)) p (2 * h) x =
      (List.range h ×ˢ List.range c).foldl (butterflyPass t (c * (2 * h)) p h) x := by
  have hgroups : c * (2 * h) / (2 * h) = c := Nat.mul_div_cancel c (by omega)
  simp only [stageByLoops, hgroups, Nat.mul_div_cancel_left h two_pos]
  exact (List.foldl_flatMap.trans (by simp only [List.foldl_map, butterflyPass, hgroups])).symm

theorem stageByLoops_eq_stage (t : Nat → Int) {c h : Nat} (hh : 0 < h) (p : Int) {x : List Int}
    (hx : x.length = c * (2 * h)) : stageByLoops t (c * (2 * h)) p (2 * h) x = stage t (c * (2 * h)) p (2 * h) x := by
  rw [stageByLoops_eq_foldl_product t hh]
  refine (butterflyPass_ownCells t p hx).foldl_eq (List.nodup_range.product List.nodup_range) (by simp [hx])
    fun q hq => List.pair_mem_product.2 ⟨List.mem_range.2 (Nat.mod_lt q hh), List.mem_range.2 ?_⟩
  rw [Nat.div_div_eq_div_mul]
  exact Nat.div_lt_of_lt_mul (by rwa [mul_comm h, mul_comm, ← hx])

/-- Settles O41: each pair of the span is processed once (`butterflyPass_ownCells`). -/
theorem butterflyLoopsAreTheStage : Obligations.ButterflyLoopsAreTheStage := by
  rintro t e (_ | k) p x hx hk hke
  · omega
  have hn : 2 ^ e = 2 ^ (e - (k + 1)) * (2 * 2 ^ k) := by rw [← pow_succ', ← pow_add]; congr 1; omega
  rw [hn] at hx ⊢
  rw [pow_succ']
  exact stageByLoops_eq_stage t (Nat.two_pow_pos k) p hx

end Sys2Proof.Machine
end

section
/-! PROOFS. What the butterfly network computes (44_transforms.md R143, R144, R148(a)), in a ring in which the root's
power to half the length is -1: a stage joins neighbouring blocks, each of which holds the transform of a part of the
input. -/

namespace Sys2Proof.Machine

/-! ### The butterfly network in a ring -/

/-- The reversed index of `e + 1` bits, from the lowest bit of the index. -/
theorem bitRevIndex_two_mul_add {b : Nat} (hb : b < 2) (g e : Nat) :
    bitRevIndex (2 * g + b) (e + 1) = bitRevIndex g e + 2 ^ e * b := by
  induction e with
  | zero => simp [bitRevIndex, Nat.mod_eq_of_lt hb]
  | succ e ih =>
    have hdiv : (2 * g + b) / 2 ^ (e + 1) = g / 2 ^ e := by
      rw [pow_succ', ← Nat.div_div_eq_div_mul]
      congr 1
      omega
    rw [bitRevIndex_succ, ih, hdiv, bitRevIndex_succ]
    ring

theorem sum_range_two_mul {M : Type} [AddCommMonoid M] (f : Nat → M) (n : Nat) :
    ∑ j ∈ Finset.range (2 * n), f j =
      ∑ j ∈ Finset.range n, f (2 * j) + ∑ j ∈ Finset.range n, f (2 * j + 1) := by
  induction n with
  | zero => simp
  | succ n ih =>
    simp only [Nat.mul_succ, Finset.sum_range_succ, ih]
    abel

section
variable {R : Type} [CommRing R] (w : R) (x : Nat → R)

/-- After the stages of span `2, …, 2^k` of a transform of length `2^(k+l)`: element `a` of block `g` holds element `a`
of the transform of length `2^k`, with root `w^(2^l)`, of the elements of `x` that the bit reversal put into the block
(R148(a)). -/
def blockTransform (k l g a : Nat) : R :=
  ∑ j ∈ Finset.range (2 ^ k), w ^ (2 ^ l * a * j) * x (bitRevIndex g l + 2 ^ l * j)

theorem blockTransform_zero (l g a : Nat) : blockTransform w x 0 l g a = x (bitRevIndex g l) := by
  simp [blockTransform]

/-- The even and the odd terms are the transforms of the two halves of a block. -/
theorem blockTransform_succ (k l g a : Nat) : blockTransform w x (k + 1) l g a =
    blockTransform w x k (l + 1) (2 * g) a + blockTransform w x k (l + 1) (2 * g + 1) a * w ^ (2 ^ l * a) := by
  have heven : bitRevIndex (2 * g) (l + 1) = bitRevIndex g l := bitRevIndex_two_mul_add two_pos g l
  have hodd : bitRevIndex (2 * g + 1) (l + 1) = bitRevIndex g l + 2 ^ l * 1 := bitRevIndex_two_mul_add one_lt_two g l
  rw [blockTransform, pow_succ', sum_range_two_mul, blockTransform, blockTransform, heven, hodd, Finset.sum_mul]
  congr 1 <;> refine Finset.sum_congr rfl fun j _ => ?_
  · rw [show 2 ^ l * a * (2 * j) = 2 ^ (l + 1) * a * j by ring, show 2 ^ l * (2 * j) = 2 ^ (l + 1) * j by ring]
  · rw [mul_right_comm _ _ (w ^ _), ← pow_add, show 2 ^ l * a * (2 * j + 1) = 2 ^ (l + 1) * a * j + 2 ^ l * a by ring,
      show bitRevIndex g l + 2 ^ l * (2 * j + 1) = bitRevIndex g l + 2 ^ l * 1 + 2 ^ (l + 1) * j by ring]

variable {w}

/-- The transform of a block repeats after its length. -/
theorem blockTransform_add_period {k l : Nat} (hw : w ^ 2 ^ (k + l) = -1) (g a : Nat) :
    blockTransform w x k (l + 1) g (a + 2 ^ k) = blockTransform w x k (l + 1) g a := by
  have hone : w ^ (2 ^ (l + 1) * 2 ^ k) = 1 := by
    rw [show 2 ^ (l + 1) * 2 ^ k = 2 ^ (k + l) * 2 by ring, pow_mul, hw, neg_one_sq]
  refine Finset.sum_congr rfl fun j _ => ?_
  rw [Nat.mul_add, Nat.add_mul, pow_add, pow_mul w (2 ^ (l + 1) * 2 ^ k), hone, one_pow, mul_one]

theorem blockTransform_succ_add_half {k l : Nat} (hw : w ^ 2 ^ (k + l) = -1) (g a : Nat) :
    blockTransform w x (k + 1) l g (a + 2 ^ k) =
      blockTransform w x k (l + 1) (2 * g) a - blockTransform w x k (l + 1) (2 * g + 1) a * w ^ (2 ^ l * a) := by
  rw [blockTransform_succ, blockTransform_add_period x hw, blockTransform_add_period x hw, Nat.mul_add, pow_add,
    ← pow_add 2, Nat.add_comm l k, hw]
  ring

end

/-! ### The stages -/

section
variable {P : Nat} {t : Nat → Int} {w : ZMod P}

theorem cast_modMul (a b : Int) : ((modMul a b P : Int) : ZMod P) = a * b := by
  rw [modMul, ZMod.intCast_mod, Int.cast_mul]

/-- Modulo `P`, the buffer `y` holds what the stages of span `2, …, 2^k` leave of `x` (R148(a)). -/
def HoldsBlocks (w : ZMod P) (x : Nat → ZMod P) (k l : Nat) (y : List Int) : Prop :=
  ∀ g a, g < 2 ^ l → a < 2 ^ k → ((y.getD (a + g * 2 ^ k) 0 : Int) : ZMod P) = blockTransform w x k l g a

theorem holdsBlocks_bitReverse (w : ZMod P) (l : Nat) (x : List Int) :
    HoldsBlocks w (fun j => ((x.getD j 0 : Int) : ZMod P)) 0 l (bitReverse 0 (2 ^ l) x) := by
  intro g a hg ha
  obtain rfl : a = 0 := Nat.lt_one_iff.1 ha
  rw [blockTransform_zero, Nat.zero_add, pow_zero, mul_one, bitReverse_getD 0 x hg]

/-- The stage of span `2^(k+1)` makes each two neighbouring blocks one: its butterflies are the halves of
`blockTransform_succ`. -/
theorem HoldsBlocks.succ {x : Nat → ZMod P} {k l : Nat} {y : List Int} (h : HoldsBlocks w x k (l + 1) y)
    (hw : w ^ 2 ^ (k + l) = -1) (ht : ∀ i, i < 2 ^ (k + l) → ((t i : Int) : ZMod P) = w ^ i) :
    HoldsBlocks w x (k + 1) l (stage t (2 ^ (k + l + 1)) P (2 ^ (k + 1)) y) := by
  intro g a hg ha
  have hspan : 2 ^ (k + 1) = 2 * 2 ^ k := pow_succ' 2 k
  have hn : 2 ^ (k + l + 1) = 2 ^ l * (2 * 2 ^ k) := by ring
  have hquot : 2 ^ (k + l + 1) / (2 * 2 ^ k) = 2 ^ l := by rw [hn, Nat.mul_div_cancel _ (by positivity)]
  obtain ⟨b, hb, hab⟩ : ∃ b < 2 ^ k, a = b ∨ a = b + 2 ^ k := by
    obtain hlt | hge := Nat.lt_or_ge a (2 ^ k)
    · exact ⟨a, hlt, .inl rfl⟩
    · exact ⟨a - 2 ^ k, by omega, .inr (by omega)⟩
  have hlt : b + g * (2 * 2 ^ k) + 2 ^ k < 2 ^ (k + l + 1) := hn ▸ pair_lt hb hg
  have heven : ((y.getD (b + g * (2 * 2 ^ k)) 0 : Int) : ZMod P) = blockTransform w x k (l + 1) (2 * g) b := by
    rw [← h (2 * g) b (by omega) hb]
    ring_nf
  have hodd : ((y.getD (b + g * (2 * 2 ^ k) + 2 ^ k) 0 : Int) : ZMod P) =
      blockTransform w x k (l + 1) (2 * g + 1) b := by
    rw [← h (2 * g + 1) b (by omega) hb]
    ring_nf
  have htwiddle : ((t (b * 2 ^ l) : Int) : ZMod P) = w ^ (2 ^ l * b) := by
    rw [mul_comm, ht _ ?_]
    rw [Nat.add_comm k l, pow_add]
    exact Nat.mul_lt_mul_of_pos_left hb (by positivity)
  rw [hspan]
  obtain rfl | rfl := hab
  · rw [stage_getD_low hb (by omega), hquot, ZMod.intCast_mod, Int.cast_add, cast_modMul, heven, hodd, htwiddle,
      blockTransform_succ]
  · rw [Nat.add_right_comm b, stage_getD_high hb hlt, hquot, ZMod.intCast_mod, Int.cast_sub, cast_modMul, heven, hodd,
      htwiddle, blockTransform_succ_add_half x hw]

/-- After `k` of the stages, the blocks are of length `2^k`. -/
theorem holdsBlocks_foldl {e : Nat} (hw : w ^ 2 ^ e = -1) (ht : ∀ i, i < 2 ^ e → ((t i : Int) : ZMod P) = w ^ i)
    (x : List Int) : ∀ k l : Nat, k + l = e + 1 →
    HoldsBlocks w (fun j => ((x.getD j 0 : Int) : ZMod P)) k l
      ((List.range k).foldl (fun y k => stage t (2 ^ (e + 1)) P (2 ^ (k + 1)) y) (bitReverse 0 (2 ^ (e + 1)) x)) := by
  intro k
  induction k with
  | zero =>
    intro l hl
    obtain rfl : l = e + 1 := by omega
    exact holdsBlocks_bitReverse w _ x
  | succ k ih =>
    intro l hl
    obtain rfl : e = k + l := by omega
    rw [List.range_succ, List.foldl_append]
    exact (ih (l + 1) (by omega)).succ hw ht

/-- The butterfly network on the permuted buffer computes the transform, modulo `P` (R148(a)): after its last stage the
whole buffer is one block. -/
theorem butterflies_bitReverse_getD {e : Nat} (hw : w ^ 2 ^ e = -1)
    (ht : ∀ i, i < 2 ^ e → ((t i : Int) : ZMod P) = w ^ i) (x : List Int) {i : Nat} (hi : i < 2 ^ (e + 1)) :
    (((butterflies t (2 ^ (e + 1)) P (bitReverse 0 (2 ^ (e + 1)) x)).getD i 0 : Int) : ZMod P) =
      ∑ j ∈ Finset.range (2 ^ (e + 1)), w ^ (i * j) * (x.getD j 0 : Int) := by
  have h := holdsBlocks_foldl hw ht x (e + 1) 0 rfl 0 i one_pos hi
  simpa [butterflies, Nat.log2_two_pow, blockTransform, bitRevIndex] using h

end

end Sys2Proof.Machine
end

section
/-! PROOFS. The inverse transform in a field (44_transforms.md R148): it inverts the transform, and of a product of
transforms it makes the cyclic convolution. -/

namespace Sys2Proof.Machine

/-! ### Sums of powers of a root -/

section
variable {F : Type} [Field F] {w : F} {n : Nat} (h : IsPrimitiveRoot w n)
include h

/-- The powers of a primitive root sum to 0 but for the exponents that cancel (R148(b)). -/
theorem sum_inv_pow_mul_pow {k : Nat} (hk : k < n) (c : Nat) :
    ∑ i ∈ Finset.range n, w⁻¹ ^ (k * i) * w ^ (i * c) = if c % n = k then (n : F) else 0 := by
  have hw : w ≠ 0 := h.ne_zero (by omega)
  have hterm (i : Nat) : w⁻¹ ^ (k * i) * w ^ (i * c) = (w⁻¹ ^ k * w ^ c) ^ i := by
    rw [mul_comm i c, pow_mul, pow_mul, mul_pow]
  have hone : w⁻¹ ^ k * w ^ c = 1 ↔ c % n = k := by
    rw [inv_pow, inv_mul_eq_one₀ (pow_ne_zero k hw), pow_eq_pow_mod c h.pow_eq_one]
    exact ⟨fun he => (h.pow_inj hk (Nat.mod_lt c (by omega)) he).symm, fun he => by rw [he]⟩
  simp only [hterm]
  split_ifs with hc
  · rw [hone.2 hc]
    simp
  · have hroot : (w⁻¹ ^ k * w ^ c) ^ n = 1 := by
      rw [mul_pow, ← pow_mul, ← pow_mul, mul_comm k, mul_comm c, pow_mul, pow_mul, inv_pow, h.pow_eq_one, inv_one,
        one_pow, one_pow, one_mul]
    rw [geom_sum_eq (mt hone.1 hc), hroot, sub_self, zero_div]

/-- The inverse transform picks, of a combination of powers, the terms whose exponent is its index modulo the length. -/
theorem sum_inv_pow_mul_sum {ι : Type} {k : Nat} (hk : k < n) (u : Finset ι) (c : ι → Nat) (f : ι → F) :
    ∑ i ∈ Finset.range n, w⁻¹ ^ (k * i) * ∑ j ∈ u, w ^ (i * c j) * f j =
      n * ∑ j ∈ u, if c j % n = k then f j else 0 := by
  simp only [Finset.mul_sum, ← mul_assoc]
  rw [Finset.sum_comm]
  refine Finset.sum_congr rfl fun j _ => ?_
  rw [← Finset.sum_mul, sum_inv_pow_mul_pow h hk]
  split_ifs <;> simp

/-- The inverse transform inverts (R148(b)). -/
theorem sum_inv_pow_mul_transform {k : Nat} (hk : k < n) (x : Nat → F) :
    ∑ i ∈ Finset.range n, w⁻¹ ^ (k * i) * ∑ j ∈ Finset.range n, w ^ (i * j) * x j = n * x k := by
  refine (sum_inv_pow_mul_sum h hk (Finset.range n) (fun j => j) x).trans (congrArg ((n : F) * ·) ?_)
  rw [Finset.sum_eq_single_of_mem k (Finset.mem_range.2 hk)]
  · rw [if_pos (Nat.mod_eq_of_lt hk)]
  · intro j hj hjk
    rw [if_neg (by rwa [Nat.mod_eq_of_lt (Finset.mem_range.1 hj)])]

/-- The inverse transform of a product of transforms is the cyclic convolution (R148(c)). -/
theorem sum_inv_pow_mul_transform_mul_transform {k : Nat} (hk : k < n) (x y : Nat → F) :
    ∑ i ∈ Finset.range n, w⁻¹ ^ (k * i) *
        ((∑ a ∈ Finset.range n, w ^ (i * a) * x a) * ∑ b ∈ Finset.range n, w ^ (i * b) * y b) =
      n * ∑ a ∈ Finset.range n, ∑ b ∈ Finset.range n, if (a + b) % n = k then x a * y b else 0 := by
  rw [← Finset.sum_product' (f := fun a b => if (a + b) % n = k then x a * y b else 0),
    ← sum_inv_pow_mul_sum h hk _ (fun q : Nat × Nat => q.1 + q.2) fun q => x q.1 * y q.2]
  refine Finset.sum_congr rfl fun i _ => ?_
  rw [Finset.sum_mul_sum, ← Finset.sum_product']
  congr 1
  refine Finset.sum_congr rfl fun q _ => ?_
  rw [Nat.mul_add, pow_add]
  ring

end

end Sys2Proof.Machine
end

section
/-! PROOFS. O42 to O46: `NTTF` and `NTTI` (44_transforms.md R145 to R148). Under a plan, modulo its prime, the tables
hold the powers of a root of 1 and of its inverse, so what is proved of the network in a field holds of the commands. -/

namespace Sys2Proof.Machine

/-! ### How a transform ends -/

section
variable {s : State} {slot src dst : Nat}

theorem transformCommand_badSelect (result : List Int → List Int)
    (h : s.params.nplans ≤ slot ∨ s.params.nbuf ≤ src ∨ s.params.nbuf ≤ dst ∨ (s.plan slot).valid = false) :
    transformCommand slot src dst s result = raise .badSelect s := by
  rw [transformCommand]
  split_ifs with hrange hvalid
  · obtain ⟨hslot, hsrc, hdst⟩ := hrange
    simp [hvalid, hslot.not_ge, hsrc.not_ge, hdst.not_ge] at h
  · rfl
  · rfl

/-- Settles O44: both transforms end as their shared checks do (`transformCommand_badSelect`). -/
theorem transformsRejectBadSelections : Obligations.TransformsRejectBadSelections := fun _ _ _ _ h =>
  ⟨congrArg Host.Outcome.next (transformCommand_badSelect _ h),
    congrArg Host.Outcome.next (transformCommand_badSelect _ h)⟩

/-- A transform under a plan stores the words of its result (R145, R146). -/
theorem transformCommand_storesSeq {result : List Int → List Int} (hslot : slot < s.params.nplans)
    (hsrc : src < s.params.nbuf) (hdst : dst < s.params.nbuf) (hvalid : (s.plan slot).valid = true)
    (hlen : (result (s.seqInts src (s.planN slot))).length = s.planN slot) :
    StoresSeq s (transformCommand slot src dst s result) dst (s.planN slot)
      fun i => wrap64 ((result (s.seqInts src (s.planN slot))).getD i 0) := by
  have h := storesSeq_storeSeq s dst ((result (s.seqInts src (s.planN slot))).map wrap64)
  rw [List.length_map, hlen] at h
  rw [transformCommand, if_pos ⟨hslot, hsrc, hdst⟩, if_pos hvalid, finish_ok]
  exact ⟨h.frame, fun i hi => (h.seq i hi).trans (List.getD_map _ 0 wrap64), h.word⟩

end

theorem seqInts_getD (s : State) (b : Nat) {n i : Nat} (hi : i < n) : (s.seqInts b n).getD i 0 = sint (s.seq b i) := by
  simp [State.seqInts, hi]

/-! ### The reference transforms modulo a prime -/

section
variable {P n : Nat}

theorem cast_refNtt (w : Int) (x : Nat → Int) (i : Nat) :
    ((refNtt w P n x i : Int) : ZMod P) = ∑ j ∈ Finset.range n, (w : ZMod P) ^ (i * j) * x j := by
  rw [refNtt, ZMod.intCast_mod]
  push_cast
  rfl

theorem cast_refIntt (winv ninv : Int) (x : Nat → Int) (i : Nat) :
    ((refIntt winv ninv P n x i : Int) : ZMod P) =
      ninv * ∑ j ∈ Finset.range n, (winv : ZMod P) ^ (i * j) * x j := by
  rw [refIntt, ZMod.intCast_mod]
  push_cast
  rfl

end

theorem refNtt_congr {w p : Int} {n : Nat} {x y : Nat → Int} (h : ∀ j, j < n → x j = y j) (i : Nat) :
    refNtt w p n x i = refNtt w p n y i :=
  congrArg (· % p) (Finset.sum_congr rfl fun j hj => by rw [h j (Finset.mem_range.1 hj)])

theorem refIntt_congr {winv ninv p : Int} {n : Nat} {x y : Nat → Int} (h : ∀ j, j < n → x j = y j) (i : Nat) :
    refIntt winv ninv p n x i = refIntt winv ninv p n y i :=
  congrArg (ninv * · % p) (Finset.sum_congr rfl fun j hj => by rw [h j (Finset.mem_range.1 hj)])

/-! ### What the transforms compute under a plan -/

/-- Modulo `P`, the table `t` holds the powers of a primitive `2^(e+1)`-th root of 1. -/
structure RootTable (P e : Nat) (t : Nat → Int) (w : ZMod P) : Prop where
  primitive : IsPrimitiveRoot w (2 ^ (e + 1))
  power : ∀ i, i < 2 ^ (e + 1) → ((t i : Int) : ZMod P) = w ^ i

section
variable {P e : Nat} [Fact P.Prime] {t : Nat → Int}

theorem RootTable.pow_half {w : ZMod P} (h : RootTable P e t w) : w ^ 2 ^ e = -1 :=
  (h.primitive.pow (Nat.two_pow_pos _) (pow_succ 2 e)).eq_neg_one_of_two_right

theorem RootTable.butterflies_getD {w : ZMod P} (h : RootTable P e t w) (x : List Int) {i : Nat}
    (hi : i < 2 ^ (e + 1)) :
    (((butterflies t (2 ^ (e + 1)) P (bitReverse 0 (2 ^ (e + 1)) x)).getD i 0 : Int) : ZMod P) =
      ∑ j ∈ Finset.range (2 ^ (e + 1)), w ^ (i * j) * (x.getD j 0 : Int) :=
  butterflies_bitReverse_getD h.pow_half (fun i hi => h.power i (hi.trans (by rw [pow_succ]; omega))) x hi

theorem RootTable.forwardTransform_getD {w : Int} (h : RootTable P e t w) (x : List Int) {i : Nat}
    (hi : i < 2 ^ (e + 1)) :
    (forwardTransform t (2 ^ (e + 1)) P x).getD i 0 = refNtt w P (2 ^ (e + 1)) (x.getD · 0) i := by
  rw [forwardTransform, ← Int.zero_emod P, List.getD_map _ 0 (· % (P : Int)), Int.zero_emod, refNtt]
  refine (ZMod.intCast_eq_intCast_iff' _ _ P).1 ?_
  rw [h.butterflies_getD x hi]
  push_cast
  rfl

theorem RootTable.inverseTransform_getD {winv : Int} (h : RootTable P e t winv) (ninv : Int) (x : List Int) {i : Nat}
    (hi : i < 2 ^ (e + 1)) :
    (inverseTransform t (2 ^ (e + 1)) P ninv x).getD i 0 = refIntt winv ninv P (2 ^ (e + 1)) (x.getD · 0) i := by
  have hzero : modMul 0 ninv P = 0 := by rw [modMul, zero_mul, Int.zero_emod]
  rw [inverseTransform, ← hzero, List.getD_map _ 0 (modMul · ninv P), hzero, refIntt]
  refine (ZMod.intCast_eq_intCast_iff' _ _ P).1 ?_
  push_cast
  rw [h.butterflies_getD x hi, mul_comm]

end

/-- A plan (R28) as mathematics: modulo the prime `P`, the tables hold the powers of a primitive root of 1 and of its
inverse, and `PLAN_NINV` is the inverse of the length. -/
structure FieldPlan (s : State) (slot P e : Nat) : Prop where
  prime : Nat.Prime P
  modulus : s.planP slot = P
  length : s.planN slot = 2 ^ (e + 1)
  forward : RootTable P e (s.twTable slot) (sint (s.tw slot 1))
  backward : RootTable P e (s.itwTable slot) (sint (s.itw slot 1))
  inverse : ((sint (s.tw slot 1) : Int) : ZMod P) * sint (s.itw slot 1) = 1
  lengthInverse : ((s.planNinv slot : Int) : ZMod P) * (2 ^ (e + 1) : Nat) = 1

/-- A slot that satisfies R28 holds such a plan. -/
theorem PlanOk.fieldPlan {s : State} {slot : Nat} (h : PlanOk s slot) : ∃ P e, FieldPlan s slot P e := by
  obtain ⟨P, hP, hp⟩ := exists_prime_of_isPrime h.prime
  obtain ⟨e, he⟩ := h.lengthPow2
  have hlow := h.lengthLow
  obtain ⟨e, rfl⟩ := Nat.exists_eq_succ_of_ne_zero (show e ≠ 0 by rintro rfl; omega)
  have hn : s.planN slot = 2 ^ (e + 1) := by rw [State.planN, he, Int.toNat_pow_of_nonneg (by omega)]; rfl
  have := Fact.mk hP
  have hone (v : Int) : v % s.planP slot = 1 ↔ (v : ZMod P) = 1 := by rw [hp]; exact emod_eq_one_iff hP.one_lt v
  have hprimitive : IsPrimitiveRoot ((sint (s.tw slot 1) : Int) : ZMod P) (2 ^ (e + 1)) := by
    rw [← hn]
    have hroot := (hone _).1 h.rootPower
    refine .mk_of_lt _ (by rw [hn]; positivity) (by exact_mod_cast hroot) fun m hpos hlt hm => ?_
    exact h.rootOrder m hlt hpos ((hone _).2 (by exact_mod_cast hm))
  have hinverse : ((sint (s.tw slot 1) : Int) : ZMod P) * sint (s.itw slot 1) = 1 := by
    exact_mod_cast (hone _).1 h.inverseRoot
  refine ⟨P, e, hP, hp, hn, ⟨hprimitive, fun i hi => ?_⟩, ⟨?_, fun i hi => ?_⟩, hinverse, ?_⟩
  · rw [State.twTable, h.table i (hn ▸ hi), hp, ZMod.intCast_mod, Int.cast_pow]
  · rw [eq_inv_of_mul_eq_one_right hinverse]
    exact hprimitive.inv
  · rw [State.itwTable, h.inverseTable i (hn ▸ hi), hp, ZMod.intCast_mod, Int.cast_pow]
  · have := (hone _).1 h.lengthInverse
    rw [he] at this
    exact_mod_cast this

section
variable {s : State} {slot : Nat} (h : PlanOk s slot)
include h

theorem PlanOk.forwardTransform_getD (x : List Int) {i : Nat} (hi : i < s.planN slot) :
    (forwardTransform (s.twTable slot) (s.planN slot) (s.planP slot) x).getD i 0 =
      refNtt (sint (s.tw slot 1)) (s.planP slot) (s.planN slot) (x.getD · 0) i := by
  obtain ⟨P, e, hfield⟩ := h.fieldPlan
  have := Fact.mk hfield.prime
  rw [hfield.length] at hi ⊢
  rw [hfield.modulus, hfield.forward.forwardTransform_getD x hi]

theorem PlanOk.inverseTransform_getD (x : List Int) {i : Nat} (hi : i < s.planN slot) :
    (inverseTransform (s.itwTable slot) (s.planN slot) (s.planP slot) (s.planNinv slot) x).getD i 0 =
      refIntt (sint (s.itw slot 1)) (s.planNinv slot) (s.planP slot) (s.planN slot) (x.getD · 0) i := by
  obtain ⟨P, e, hfield⟩ := h.fieldPlan
  have := Fact.mk hfield.prime
  rw [hfield.length] at hi ⊢
  rw [hfield.modulus, hfield.backward.inverseTransform_getD _ x hi]

/-- R148(b), the inverse transform last. -/
theorem PlanOk.refIntt_refNtt (x : Nat → Int) {i : Nat} (hi : i < s.planN slot) :
    refIntt (sint (s.itw slot 1)) (s.planNinv slot) (s.planP slot) (s.planN slot)
      (refNtt (sint (s.tw slot 1)) (s.planP slot) (s.planN slot) x) i = x i % s.planP slot := by
  obtain ⟨P, e, hfield⟩ := h.fieldPlan
  have := Fact.mk hfield.prime
  rw [hfield.length] at hi ⊢
  rw [hfield.modulus, refIntt]
  refine (ZMod.intCast_eq_intCast_iff' _ _ P).1 ?_
  push_cast
  simp only [cast_refNtt, eq_inv_of_mul_eq_one_right hfield.inverse]
  rw [sum_inv_pow_mul_transform hfield.forward.primitive hi, ← mul_assoc, hfield.lengthInverse, one_mul]

/-- R148(b), the forward transform last. -/
theorem PlanOk.refNtt_refIntt (x : Nat → Int) {i : Nat} (hi : i < s.planN slot) :
    refNtt (sint (s.tw slot 1)) (s.planP slot) (s.planN slot)
      (refIntt (sint (s.itw slot 1)) (s.planNinv slot) (s.planP slot) (s.planN slot) x) i = x i % s.planP slot := by
  obtain ⟨P, e, hfield⟩ := h.fieldPlan
  have := Fact.mk hfield.prime
  rw [hfield.length] at hi ⊢
  rw [hfield.modulus, refNtt]
  refine (ZMod.intCast_eq_intCast_iff' _ _ P).1 ?_
  push_cast
  simp only [cast_refIntt, eq_inv_of_mul_eq_one_left hfield.inverse, mul_left_comm _ ((s.planNinv slot : Int) : ZMod P)]
  rw [← Finset.mul_sum, sum_inv_pow_mul_transform hfield.backward.primitive hi, ← mul_assoc, hfield.lengthInverse,
    one_mul]

/-- R148(c). -/
theorem PlanOk.refIntt_mul_refNtt (x y : Nat → Int) {i : Nat} (hi : i < s.planN slot) :
    refIntt (sint (s.itw slot 1)) (s.planNinv slot) (s.planP slot) (s.planN slot)
      (fun j => modMul (refNtt (sint (s.tw slot 1)) (s.planP slot) (s.planN slot) x j)
        (refNtt (sint (s.tw slot 1)) (s.planP slot) (s.planN slot) y j) (s.planP slot)) i =
      cyclicConvolution (s.planN slot) x y i % s.planP slot := by
  obtain ⟨P, e, hfield⟩ := h.fieldPlan
  have := Fact.mk hfield.prime
  rw [hfield.length] at hi ⊢
  rw [hfield.modulus, refIntt]
  refine (ZMod.intCast_eq_intCast_iff' _ _ P).1 ?_
  rw [cyclicConvolution]
  push_cast
  simp only [cast_modMul, cast_refNtt, eq_inv_of_mul_eq_one_right hfield.inverse]
  rw [sum_inv_pow_mul_transform_mul_transform hfield.forward.primitive hi, ← mul_assoc, hfield.lengthInverse, one_mul]

/-- A remainder modulo the prime of a plan reads as it was written. -/
theorem PlanOk.emod_range (x : Int) : sint (wrap64 (x % s.planP slot)) = x % s.planP slot ∧
    0 ≤ x % s.planP slot ∧ x % s.planP slot < s.planP slot := by
  obtain ⟨P, hP, hp⟩ := exists_prime_of_isPrime h.prime
  have hpos : 0 < s.planP slot := by rw [hp]; exact_mod_cast hP.pos
  exact ⟨sint_wrap64_emod x (by omega) h.modulusHigh, Int.emod_nonneg x hpos.ne', Int.emod_lt_of_pos x hpos⟩

theorem PlanOk.sint_wrap64_refNtt (w : Int) (n : Nat) (x : Nat → Int) (i : Nat) :
    sint (wrap64 (refNtt w (s.planP slot) n x i)) = refNtt w (s.planP slot) n x i := (h.emod_range _).1

theorem PlanOk.sint_wrap64_refIntt (winv ninv : Int) (n : Nat) (x : Nat → Int) (i : Nat) :
    sint (wrap64 (refIntt winv ninv (s.planP slot) n x i)) = refIntt winv ninv (s.planP slot) n x i :=
  (h.emod_range _).1

end

/-- Settles O46: on lists the transforms are the reference transforms, which turn products into convolutions
(`PlanOk.refIntt_mul_refNtt`). -/
theorem pointwiseProductIsCyclicConvolution : Obligations.PointwiseProductIsCyclicConvolution := by
  intro s slot x y h hx hy k hk
  rw [h.inverseTransform_getD _ hk, ← h.refIntt_mul_refNtt _ _ hk]
  refine refIntt_congr (fun j hj => ?_) k
  rw [← h.forwardTransform_getD x hj, ← h.forwardTransform_getD y hj]
  simp [List.getD_eq_getElem?_getD, hj]

/-! ### The commands -/

section
variable {s : State} {slot src dst : Nat} (hslot : slot < s.params.nplans) (hsrc : src < s.params.nbuf)
  (hdst : dst < s.params.nbuf) (hvalid : (s.plan slot).valid = true) (h : PlanOk s slot)
include hslot hsrc hdst hvalid h

theorem exec_nttf_storesSeq : ∃ t, exec (.nttf slot src dst) s = .next t ∧ StoresSeq s t dst (s.planN slot) fun i =>
    wrap64 (refNtt (sint (s.tw slot 1)) (s.planP slot) (s.planN slot) (fun j => sint (s.seq src j)) i) := by
  obtain ⟨hframe, hseq, hword⟩ := transformCommand_storesSeq hslot hsrc hdst hvalid
    (forwardTransform_length (s.twTable slot) (s.planN slot) (s.planP slot) (s.seqInts src (s.planN slot)))
  refine ⟨_, rfl, hframe, fun i hi => (hseq i hi).trans ?_, hword⟩
  rw [h.forwardTransform_getD _ hi, refNtt_congr fun j hj => seqInts_getD s src hj]

theorem exec_ntti_storesSeq : ∃ t, exec (.ntti slot src dst) s = .next t ∧ StoresSeq s t dst (s.planN slot) fun i =>
    wrap64 (refIntt (sint (s.itw slot 1)) (s.planNinv slot) (s.planP slot) (s.planN slot)
      (fun j => sint (s.seq src j)) i) := by
  obtain ⟨hframe, hseq, hword⟩ := transformCommand_storesSeq hslot hsrc hdst hvalid
    (inverseTransform_length (s.itwTable slot) (s.planN slot) (s.planP slot) (s.planNinv slot)
      (s.seqInts src (s.planN slot)))
  refine ⟨_, rfl, hframe, fun i hi => (hseq i hi).trans ?_, hword⟩
  rw [h.inverseTransform_getD _ hi, refIntt_congr fun j hj => seqInts_getD s src hj]

end

/-- Settles O42: the butterfly network computes the reference transform (`exec_nttf_storesSeq`). -/
theorem nttfWritesTheReferenceTransform : Obligations.NttfWritesTheReferenceTransform := by
  intro s slot src dst hslot hsrc hdst hvalid h
  obtain ⟨t, ht, hframe, hseq, hword⟩ := exec_nttf_storesSeq hslot hsrc hdst hvalid h
  refine ⟨t, ht, hframe, fun i hi => ?_, hword⟩
  rw [hseq i hi, h.sint_wrap64_refNtt]
  exact ⟨rfl, (h.emod_range _).2⟩

/-- Settles O43: with the inverse table and the scaling it computes the inverse (`exec_ntti_storesSeq`). -/
theorem nttiWritesTheReferenceInverse : Obligations.NttiWritesTheReferenceInverse := by
  intro s slot src dst hslot hsrc hdst hvalid h
  obtain ⟨t, ht, hframe, hseq, hword⟩ := exec_ntti_storesSeq hslot hsrc hdst hvalid h
  refine ⟨t, ht, hframe, fun i hi => ?_, hword⟩
  rw [hseq i hi, h.sint_wrap64_refIntt]
  exact ⟨rfl, (h.emod_range _).2⟩

/-- Settles O45: the second command reads what the first wrote, under the same plan (`StoresSeq.planOk`); the reference
transforms invert each other (`PlanOk.refIntt_refNtt`, `PlanOk.refNtt_refIntt`). -/
theorem transformRoundTripReducesTheInput : Obligations.TransformRoundTripReducesTheInput := by
  intro s slot src mid dst hslot hsrc hmid hdst hvalid h
  constructor
  · obtain ⟨t, ht, hst⟩ := exec_nttf_storesSeq hslot hsrc hmid hvalid h
    obtain ⟨u, hu, htu⟩ := exec_ntti_storesSeq (hst.params ▸ hslot) (hst.params ▸ hmid) (hst.params ▸ hdst)
      (hst.plan slot ▸ hvalid) (hst.planOk h)
    refine ⟨t, u, ht, hu, fun i hi => ?_⟩
    rw [htu.seq i (hst.planN slot ▸ hi), hst.planN, hst.planP, hst.planNinv, hst.itw, h.sint_wrap64_refIntt]
    exact (refIntt_congr (fun j hj => by rw [hst.seq j hj, h.sint_wrap64_refNtt]) i).trans
      (h.refIntt_refNtt (fun j => sint (s.seq src j)) hi)
  · obtain ⟨t, ht, hst⟩ := exec_ntti_storesSeq hslot hsrc hmid hvalid h
    obtain ⟨u, hu, htu⟩ := exec_nttf_storesSeq (hst.params ▸ hslot) (hst.params ▸ hmid) (hst.params ▸ hdst)
      (hst.plan slot ▸ hvalid) (hst.planOk h)
    refine ⟨t, u, ht, hu, fun i hi => ?_⟩
    rw [htu.seq i (hst.planN slot ▸ hi), hst.planN, hst.planP, hst.tw, h.sint_wrap64_refNtt]
    exact (refNtt_congr (fun j hj => by rw [hst.seq j hj, h.sint_wrap64_refIntt]) i).trans
      (h.refNtt_refIntt (fun j => sint (s.seq src j)) hi)

end Sys2Proof.Machine
end

section
/-! PROOFS. The Chinese remainder theorem as R160 and R161 use it (45_crt.md): the coefficients of `CRT` exist exactly
when no modulus divides the product of the others, and then the sum they give has every residue. -/

namespace Sys2Proof.Machine

/-! ### Products of moduli -/

/-- What R160 asks of its moduli: each is above 1 and coprime to every other. -/
structure CrtModuli (cnt : Nat) (p : Nat → Int) : Prop where
  one_lt : ∀ i, i < cnt → 1 < p i
  coprime : ∀ i j, i < cnt → j < cnt → i ≠ j → IsCoprime (p i) (p j)

section
variable {cnt : Nat} {p : Nat → Int} {i : Nat}

/-- `Ni` is the product of the other moduli (R160). -/
theorem prod_ediv_eq_prod_erase (hi : i < cnt) (hp : 1 < p i) :
    (∏ j ∈ Finset.range cnt, p j) / p i = ∏ j ∈ (Finset.range cnt).erase i, p j :=
  Int.ediv_eq_of_eq_mul_right (by omega) (Finset.mul_prod_erase _ p (Finset.mem_range.2 hi)).symm

/-- Every other modulus divides `Ni`. -/
theorem dvd_prod_ediv {j : Nat} (hi : i < cnt) (hj : j < cnt) (hij : i ≠ j) (hp : 1 < p j) :
    p i ∣ (∏ k ∈ Finset.range cnt, p k) / p j := by
  rw [prod_ediv_eq_prod_erase hj hp]
  exact Finset.dvd_prod_of_mem p (Finset.mem_erase.2 ⟨hij, Finset.mem_range.2 hi⟩)

theorem CrtModuli.isCoprime_prod_ediv (h : CrtModuli cnt p) (hi : i < cnt) :
    IsCoprime ((∏ j ∈ Finset.range cnt, p j) / p i) (p i) := by
  rw [prod_ediv_eq_prod_erase hi (h.one_lt i hi)]
  refine IsCoprime.prod_left fun j hj => ?_
  obtain ⟨hne, hmem⟩ := Finset.mem_erase.1 hj
  exact h.coprime j i (Finset.mem_range.1 hmem) hi hne

/-- Numbers in `[0, M)` with the same residues are one number. -/
theorem CrtModuli.eq_of_residues (h : CrtModuli cnt p) {u v : Int} (hu : 0 ≤ u)
    (hum : u < ∏ j ∈ Finset.range cnt, p j) (hv : 0 ≤ v) (hvm : v < ∏ j ∈ Finset.range cnt, p j)
    (hres : ∀ i, i < cnt → u % p i = v % p i) : u = v := by
  have hdvd : ∏ j ∈ Finset.range cnt, p j ∣ v - u :=
    Finset.prod_dvd_of_coprime
      (fun i hi j hj hij => h.coprime i j (Finset.mem_range.1 hi) (Finset.mem_range.1 hj) hij)
      fun i hi => Int.modEq_iff_dvd.1 (hres i (Finset.mem_range.1 hi))
  have hmod : u ≡ v [ZMOD ∏ j ∈ Finset.range cnt, p j] := Int.modEq_iff_dvd.2 hdvd
  rwa [Int.ModEq, Int.emod_eq_of_lt hu hum, Int.emod_eq_of_lt hv hvm] at hmod

/-- The sum of R161 has the residue of `r i`: the terms of the other moduli vanish, and `Ni * d_i` is 1. -/
theorem CrtModuli.sum_modEq (h : CrtModuli cnt p) (r d : Nat → Int) (hi : i < cnt)
    (hd : (∏ k ∈ Finset.range cnt, p k) / p i * d i ≡ 1 [ZMOD p i]) :
    ∑ j ∈ Finset.range cnt, r j % p j * ((∏ k ∈ Finset.range cnt, p k) / p j) * d j ≡ r i [ZMOD p i] := by
  have hothers : p i ∣ ∑ j ∈ (Finset.range cnt).erase i,
      r j % p j * ((∏ k ∈ Finset.range cnt, p k) / p j) * d j := by
    refine Finset.dvd_sum fun j hj => Dvd.dvd.mul_right (Dvd.dvd.mul_left ?_ _) _
    obtain ⟨hne, hmem⟩ := Finset.mem_erase.1 hj
    have hj := Finset.mem_range.1 hmem
    exact dvd_prod_ediv hi hj hne.symm (h.one_lt j hj)
  rw [← Finset.add_sum_erase _ _ (Finset.mem_range.2 hi)]
  calc _ ≡ r i % p i * ((∏ k ∈ Finset.range cnt, p k) / p i) * d i + 0 [ZMOD p i] :=
        (Int.modEq_zero_iff_dvd.2 hothers).add_left _
    _ = r i % p i * ((∏ k ∈ Finset.range cnt, p k) / p i * d i) := by ring
    _ ≡ r i * 1 [ZMOD p i] := (Int.mod_modEq _ _).mul hd
    _ = r i := mul_one _

end

/-! ### The coefficients -/

/-- `ModInv` raises no error but `NotInvertible` (R92). -/
theorem modInv_cases (a m : Int) : (∃ v, modInv a m = .ok v) ∨ modInv a m = .error .notInvertible := by
  simp only [modInv]
  split_ifs
  · exact .inl ⟨_, rfl⟩
  · exact .inr rfl

theorem CrtModuli.exists_modInv {cnt i : Nat} {p : Nat → Int} (h : CrtModuli cnt p) (hi : i < cnt) :
    ∃ d, modInv ((∏ j ∈ Finset.range cnt, p j) / p i % p i) (p i) = .ok d ∧
      (∏ j ∈ Finset.range cnt, p j) / p i * d ≡ 1 [ZMOD p i] := by
  have hp := (h.one_lt i hi).le
  obtain ⟨d, hok, -, -, hd, -⟩ := (modInvIsTheUniqueInverse ((∏ j ∈ Finset.range cnt, p j) / p i % p i) (p i) hp).1
    (by rw [Int.gcd_emod, Int.gcd_emod]; exact Int.isCoprime_iff_gcd_eq_one.1 (h.isCoprime_prod_ediv hi))
  exact ⟨d, hok, ((Int.mod_modEq _ _).symm.mul_right d).trans hd⟩

/-- A modulus that divides `Ni` makes `d_i` fail (R160). -/
theorem modInv_of_dvd {a m : Int} (hm : 1 < m) (hdvd : m ∣ a) : modInv (a % m) m = .error .notInvertible := by
  refine (modInvIsTheUniqueInverse (a % m) m hm.le).2 ?_
  rw [Int.emod_eq_zero_of_dvd hdvd, Int.zero_emod, Int.gcd_zero_left]
  omega

theorem crtCoeffs_map_ok {mprod : Int} {p d : Nat → Int} : ∀ {is : List Nat},
    (∀ i ∈ is, modInv (mprod / p i % p i) (p i) = .ok (d i)) →
      crtCoeffs mprod (is.map p) = .ok (is.map fun i => (mprod / p i, d i)) := by
  intro is
  induction is with
  | nil => exact fun _ => rfl
  | cons i is ih =>
    intro h
    obtain ⟨hi, his⟩ := List.forall_mem_cons.1 h
    simp only [List.map_cons, crtCoeffs, hi, ih his]

theorem crtCoeffs_notInvertible {mprod q : Int} : ∀ {ps : List Int}, q ∈ ps →
    modInv (mprod / q % q) q = .error .notInvertible → crtCoeffs mprod ps = .error .notInvertible := by
  intro ps
  induction ps with
  | nil => exact fun hq => absurd hq List.not_mem_nil
  | cons p ps ih =>
    intro hq hinv
    obtain ⟨d, hd⟩ | hd := modInv_cases (mprod / p % p) p
    · obtain rfl | hq := List.mem_cons.1 hq
      · cases hd.symm.trans hinv
      · simp only [crtCoeffs, hd, ih hq hinv]
    · simp only [crtCoeffs, hd]

theorem crtSum_map (p r : Nat → Int) (c : Nat → Int × Int) (is : List Nat) :
    crtSum (is.map p) (is.map c) (is.map r) = (is.map fun i => r i % p i * (c i).1 * (c i).2).sum := by
  induction is with
  | nil => rfl
  | cons i is ih => simp only [List.map_cons, crtSum, ih, List.sum_cons]

/-! ### The words of an entry -/

theorem uint_wrap64_natCast (v : Nat) : uint (wrap64 v) = v % 2 ^ 64 := by
  rw [uint, wrap64, BitVec.ofInt_natCast, BitVec.toNat_ofNat]

/-- `n` words hold a number modulo `2^(64 * n)` (R31). -/
theorem sum_uint_wrap64 (v : Nat) : ∀ n : Nat,
    ∑ k ∈ Finset.range n, uint (wrap64 ((v : Int) / (2 ^ (64 * k) : Nat))) * 2 ^ (64 * k) = v % 2 ^ (64 * n) := by
  intro n
  induction n with
  | zero => simp [Nat.mod_one]
  | succ n ih =>
    rw [Finset.sum_range_succ, ih, ← Int.natCast_ediv, uint_wrap64_natCast, Nat.mul_succ, pow_add, Nat.mod_mul,
      Nat.mul_comm (2 ^ (64 * n))]

/-- A value in `[0, MOD_MAX]` fills the lowest word only. -/
theorem ediv_eq_zero_of_le_modMax {v : Int} (hnonneg : 0 ≤ v) (hv : v ≤ modMax) {k : Nat} (hk : 1 ≤ k) :
    v / (2 ^ (64 * k) : Nat) = 0 := by
  refine Int.ediv_eq_zero_of_lt hnonneg ?_
  calc v ≤ modMax := hv
    _ < (2 ^ (64 * 1) : Nat) := by decide
    _ ≤ (2 ^ (64 * k) : Nat) := by exact_mod_cast Nat.pow_le_pow_right two_pos (Nat.mul_le_mul_left 64 hk)

end Sys2Proof.Machine
end

section
/-! PROOFS. O47 to O49: `CRT` (45_crt.md R161, R162). -/

namespace Sys2Proof.Machine

/-! ### How `CRT` ends -/

section
variable {s : State} {cnt src : Nat}

theorem exec_crt_of_out_of_range (h : ¬ (1 ≤ cnt ∧ cnt ≤ s.params.nplans ∧ src + cnt ≤ s.params.nbuf)) :
    exec (.crt cnt src) s = .next (raise .badSelect s) := by
  simp only [exec, execCrt, if_neg h, finish_error]

variable (hrange : 1 ≤ cnt ∧ cnt ≤ s.params.nplans ∧ src + cnt ≤ s.params.nbuf)
include hrange

theorem exec_crt_of_not_valid (h : ∃ i, i < cnt ∧ (s.plan i).valid = false) :
    exec (.crt cnt src) s = .next (raise .badSelect s) := by
  have hvalid : ¬ (List.range cnt).all (fun i => (s.plan i).valid) = true := by simpa using h
  simp only [exec, execCrt, if_pos hrange, if_neg hvalid, finish_error]

variable (hvalid : ∀ i, i < cnt → (s.plan i).valid = true)
include hvalid

theorem exec_crt_of_length_ne (h : ∃ i, i < cnt ∧ (s.plan i).n ≠ (s.plan 0).n) :
    exec (.crt cnt src) s = .next (raise .invalidSize s) := by
  have hvalid : (List.range cnt).all (fun i => (s.plan i).valid) = true := by simpa using hvalid
  have hlength : ¬ (List.range cnt).all (fun i => decide ((s.plan i).n = (s.plan 0).n)) = true := by simpa using h
  simp only [exec, execCrt, if_pos hrange, if_pos hvalid, if_neg hlength, finish_error]

/-- Past its checks, `CRT` ends as its coefficients do (R161). -/
theorem exec_crt_of_checks (hlength : ∀ i, i < cnt → (s.plan i).n = (s.plan 0).n) :
    exec (.crt cnt src) s = .next (finish s
      ((crtCoeffs (primeProduct (crtPrimes s cnt)) (crtPrimes s cnt)).map (storeCrt s cnt src))) := by
  have hvalid : (List.range cnt).all (fun i => (s.plan i).valid) = true := by simpa using hvalid
  have hlength : (List.range cnt).all (fun i => decide ((s.plan i).n = (s.plan 0).n)) = true := by simpa using hlength
  simp only [exec, execCrt, if_pos hrange, if_pos hvalid, if_pos hlength]
  cases crtCoeffs (primeProduct (crtPrimes s cnt)) (crtPrimes s cnt) <;> rfl

end

/-! ### The primes of the slots -/

theorem PlanOk.one_lt_planP {s : State} {slot : Nat} (h : PlanOk s slot) : 1 < s.planP slot := by
  obtain ⟨P, hP, hp⟩ := exists_prime_of_isPrime h.prime
  rw [hp]
  exact_mod_cast hP.one_lt

theorem PlanOk.isCoprime_planP {s : State} {i j : Nat} (hi : PlanOk s i) (hj : PlanOk s j)
    (hne : s.planP i ≠ s.planP j) : IsCoprime (s.planP i) (s.planP j) := by
  obtain ⟨P, hP, hp⟩ := exists_prime_of_isPrime hi.prime
  obtain ⟨Q, hQ, hq⟩ := exists_prime_of_isPrime hj.prime
  rw [hp, hq] at hne ⊢
  exact Nat.isCoprime_iff_coprime.2 ((Nat.coprime_primes hP hQ).2 (by exact_mod_cast hne))

theorem primeProduct_crtPrimes (s : State) (cnt : Nat) :
    primeProduct (crtPrimes s cnt) = ∏ i ∈ Finset.range cnt, s.planP i := rfl

section
variable {s : State} {cnt : Nat} (hplans : ∀ i, i < cnt → PlanOk s i)
include hplans

/-- Plans with distinct primes have coprime moduli (R160). -/
theorem crtModuli_planP (hdistinct : ∀ i j, i < j → j < cnt → s.planP i ≠ s.planP j) : CrtModuli cnt s.planP where
  one_lt i hi := (hplans i hi).one_lt_planP
  coprime i j hi hj hij := by
    refine (hplans i hi).isCoprime_planP (hplans j hj) ?_
    obtain hlt | hgt := Nat.lt_or_gt_of_ne hij
    · exact hdistinct i j hlt hj
    · exact (hdistinct j i hgt hi).symm

/-- With two equal primes, the one divides the product of the others (R160). -/
theorem crtCoeffs_of_equal_primes {i j : Nat} (hij : i < j) (hj : j < cnt) (heq : s.planP i = s.planP j) :
    crtCoeffs (primeProduct (crtPrimes s cnt)) (crtPrimes s cnt) = .error .notInvertible := by
  have hlt := (hplans j hj).one_lt_planP
  refine crtCoeffs_notInvertible (q := s.planP j) (List.mem_map_of_mem (List.mem_range.2 hj)) (modInv_of_dvd hlt ?_)
  have hdvd := dvd_prod_ediv (hij.trans hj) hj hij.ne hlt
  rwa [heq] at hdvd

/-- The product of the primes fits the words of an entry (R31). -/
theorem prod_planP_le : ∏ i ∈ Finset.range cnt, s.planP i ≤ 2 ^ (64 * cnt) := calc
  _ ≤ ∏ _i ∈ Finset.range cnt, (2 ^ 64 : Int) := by
    refine Finset.prod_le_prod (fun i hi => ?_) fun i hi => ?_
    · exact (hplans i (Finset.mem_range.1 hi)).one_lt_planP.le.trans' zero_le_one
    · exact (hplans i (Finset.mem_range.1 hi)).modulusHigh.trans (by decide)
  _ = 2 ^ (64 * cnt) := by rw [Finset.prod_const, Finset.card_range, pow_mul]

end

/-! ### The value of an entry -/

/-- What R161 says of the value of entry `pos`. -/
structure IsReconstruction (s : State) (cnt src pos : Nat) (v : Int) : Prop where
  nonneg : 0 ≤ v
  lt : v < ∏ i ∈ Finset.range cnt, s.planP i
  residue : ∀ i, i < cnt → v % s.planP i = sint (s.seq (src + i) pos) % s.planP i

theorem IsReconstruction.unique {s : State} {cnt src pos : Nat} {u v : Int} (hmoduli : CrtModuli cnt s.planP)
    (hu : IsReconstruction s cnt src pos u) (hv : IsReconstruction s cnt src pos v) : u = v :=
  hmoduli.eq_of_residues hu.nonneg hu.lt hv.nonneg hv.lt fun i hi => (hu.residue i hi).trans (hv.residue i hi).symm

/-- With coprime moduli the coefficients exist, and the value that they give at each position is a reconstruction. -/
theorem exists_crtCoeffs {s : State} {cnt : Nat} (hmoduli : CrtModuli cnt s.planP) (src : Nat) :
    ∃ coeffs, crtCoeffs (primeProduct (crtPrimes s cnt)) (crtPrimes s cnt) = .ok coeffs ∧
      ∀ pos, IsReconstruction s cnt src pos (crtValue s cnt src coeffs pos) := by
  choose! d hinv hd using fun i (hi : i < cnt) => hmoduli.exists_modInv hi
  refine ⟨_, crtCoeffs_map_ok fun i hi => hinv i (List.mem_range.1 hi), fun pos => ?_⟩
  have hpos : 0 < ∏ i ∈ Finset.range cnt, s.planP i :=
    Finset.prod_pos fun i hi => zero_lt_one.trans (hmoduli.one_lt i (Finset.mem_range.1 hi))
  refine ⟨Int.emod_nonneg _ hpos.ne', Int.emod_lt_of_pos _ hpos, fun i hi => ?_⟩
  rw [crtValue, crtPrimes, crtResidues, crtSum_map, ← crtPrimes, primeProduct_crtPrimes,
    Int.emod_emod_of_dvd _ (Finset.dvd_prod_of_mem _ (Finset.mem_range.2 hi))]
  exact hmoduli.sum_modEq (fun i => sint (s.seq (src + i) pos)) d hi (hd i hi)

theorem storeCrt_cbuf {s : State} {cnt src pos k : Nat} {coeffs : List (Int × Int)} (hpos : pos < s.planN 0)
    (hk : k < s.params.nplans) : (storeCrt s cnt src coeffs).cbuf pos k =
      wrap64 (crtValue s cnt src coeffs pos / (2 ^ (64 * k) : Nat)) := by
  rw [State.cbuf_eq_word, storeCrt_word, if_pos ⟨rfl, hpos, hk⟩]

/-- The words of an entry hold its value, if they have room for it (R31). -/
theorem cbufValue_storeCrt {s : State} {cnt src pos : Nat} {coeffs : List (Int × Int)} (hpos : pos < s.planN 0)
    (hnonneg : 0 ≤ crtValue s cnt src coeffs pos)
    (hlt : crtValue s cnt src coeffs pos < 2 ^ (64 * s.params.nplans)) :
    (cbufValue (storeCrt s cnt src coeffs) pos : Int) = crtValue s cnt src coeffs pos := by
  obtain ⟨v, hv⟩ := Int.eq_ofNat_of_zero_le hnonneg
  have hsum : cbufValue (storeCrt s cnt src coeffs) pos = v % 2 ^ (64 * s.params.nplans) := by
    rw [← sum_uint_wrap64]
    exact Finset.sum_congr rfl fun k hk => by rw [storeCrt_cbuf hpos (Finset.mem_range.1 hk), hv]
  rw [hv] at hlt ⊢
  rw [hsum, Nat.mod_eq_of_lt (by exact_mod_cast hlt)]

/-! ### The command -/

/-- A successful `CRT` stores a reconstruction at each position (R161). -/
theorem exec_crt_ok {s : State} {cnt src : Nat}
    (hrange : 1 ≤ cnt ∧ cnt ≤ s.params.nplans ∧ src + cnt ≤ s.params.nbuf)
    (hplans : ∀ i, i < cnt → (s.plan i).valid = true ∧ PlanOk s i ∧ (s.plan i).n = (s.plan 0).n)
    (hmoduli : CrtModuli cnt s.planP) :
    ∃ coeffs, exec (.crt cnt src) s = .next ((storeCrt s cnt src coeffs).setStatus (statusWord 0)) ∧
      ∀ pos, IsReconstruction s cnt src pos (crtValue s cnt src coeffs pos) := by
  obtain ⟨coeffs, hcoeffs, hvalue⟩ := exists_crtCoeffs hmoduli src
  refine ⟨coeffs, ?_, hvalue⟩
  rw [exec_crt_of_checks hrange (fun i hi => (hplans i hi).1) fun i hi => (hplans i hi).2.2, hcoeffs]
  rfl

/-- Settles O47: the value stored is a reconstruction (`exec_crt_ok`), of which there is one
(`IsReconstruction.unique`), and it fits the words of its entry (`prod_planP_le`). -/
theorem crtWritesTheUniqueReconstruction : Obligations.CrtWritesTheUniqueReconstruction := by
  intro s cnt src hlow hhigh hbuf hplans hdistinct
  have hplanOk i hi := (hplans i hi).2.1
  have hmoduli := crtModuli_planP hplanOk hdistinct
  obtain ⟨coeffs, hexec, hvalue⟩ := exec_crt_ok ⟨hlow, hhigh, hbuf⟩ hplans hmoduli
  refine ⟨_, hexec, rfl, fun pos hpos => ?_, fun a ha => (storeCrt_word s cnt src coeffs a).trans (if_neg ha)⟩
  have hfits : (∏ i ∈ Finset.range cnt, s.planP i) ≤ 2 ^ (64 * s.params.nplans) :=
    (prod_planP_le hplanOk).trans (pow_le_pow_right₀ one_le_two (Nat.mul_le_mul_left 64 hhigh))
  have hentry : (cbufValue ((storeCrt s cnt src coeffs).setStatus (statusWord 0)) pos : Int) =
      crtValue s cnt src coeffs pos := cbufValue_storeCrt hpos (hvalue pos).nonneg ((hvalue pos).lt.trans_le hfits)
  rw [hentry]
  exact ⟨(hvalue pos).lt, (hvalue pos).residue, fun v hv hvlt hres =>
    IsReconstruction.unique hmoduli ⟨hv, hvlt, hres⟩ (hvalue pos)⟩

/-- Settles O48: each check in its order; equal primes have no coefficients (`crtCoeffs_of_equal_primes`). -/
theorem crtReportsErrorsInOrder : Obligations.CrtReportsErrorsInOrder := by
  refine fun s cnt src => ⟨fun hout => exec_crt_of_out_of_range (by omega), fun hlow hhigh hbuf => ?_⟩
  have hrange := And.intro hlow (And.intro hhigh hbuf)
  refine ⟨exec_crt_of_not_valid hrange, exec_crt_of_length_ne hrange, ?equalPrimes⟩
  rintro hplans ⟨i, j, hij, hj, heq⟩
  rw [exec_crt_of_checks hrange (fun i hi => (hplans i hi).1) fun i hi => (hplans i hi).2.2,
    crtCoeffs_of_equal_primes (fun i hi => (hplans i hi).2.1) hij hj heq]
  rfl

/-- Settles O49: the reconstruction from one residue is the residue, which fills the lowest word only. -/
theorem crtOfOnePlanCopiesTheResidues : Obligations.CrtOfOnePlanCopiesTheResidues := by
  intro s src hnplans hbuf hvalid hplan
  have hplans : ∀ i, i < 1 → (s.plan i).valid = true ∧ PlanOk s i ∧ (s.plan i).n = (s.plan 0).n := by
    intro i hi
    obtain rfl : i = 0 := by omega
    exact ⟨hvalid, hplan, rfl⟩
  have hmoduli : CrtModuli 1 s.planP := crtModuli_planP (fun i hi => (hplans i hi).2.1) (by omega)
  obtain ⟨coeffs, hexec, hvalue⟩ := exec_crt_ok ⟨le_rfl, hnplans, hbuf⟩ hplans hmoduli
  refine ⟨_, hexec, rfl, fun pos hpos => ?_⟩
  obtain ⟨hsint, hnonneg, hlt⟩ := hplan.emod_range (sint (s.seq src pos))
  have hresidue : crtValue s 1 src coeffs pos = sint (s.seq src pos) % s.planP 0 := by
    refine (hvalue pos).unique hmoduli ⟨hnonneg, by simpa using hlt, fun i hi => ?_⟩
    obtain rfl : i = 0 := by omega
    exact Int.emod_emod _ _
  have hword (k : Nat) (hk : k < s.params.nplans) :
      ((storeCrt s 1 src coeffs).setStatus (statusWord 0)).cbuf pos k =
        wrap64 (sint (s.seq src pos) % s.planP 0 / (2 ^ (64 * k) : Nat)) := by
    rw [← hresidue]
    exact storeCrt_cbuf hpos hk
  constructor
  · rw [hword 0 hnplans, mul_zero, pow_zero, Nat.cast_one, Int.ediv_one, hsint]
  · intro k hlow hk
    rw [hword k hk, ediv_eq_zero_of_le_modMax hnonneg (hlt.le.trans hplan.modulusHigh) hlow]
    rfl

end Sys2Proof.Machine
end

section
/-! PROOFS. O14: what a command that ends with an error leaves behind (60_exceptions.md R172). -/

namespace Sys2Proof.Machine

/-- Settles O14: with an error, a command is `raise` of one other than `IllegalCommand` (`exec_neverIllegal`), which
writes `STATUS` only; without one, it leaves `ERR` 0. -/
theorem failedCommandChangesOnlyStatus : Obligations.FailedCommandChangesOnlyStatus := by
  intro i s t h herr
  obtain ⟨r, hexec, hr⟩ := exec_neverIllegal i s
  obtain rfl : finish s r = t := Host.Outcome.next.inj (hexec.symm.trans h)
  cases r with
  | error e =>
    have hlow : 1 ≤ e.code := e.code_range.1
    have hhigh : e.code ≤ 6 := Err.code_le_six (hr e rfl)
    exact ⟨e.code, hlow, hhigh, raise_eq e s⟩
  | ok u => exact absurd errField_statusWord_zero herr

end Sys2Proof.Machine
end

section
/-! PROOFS. O11, O36: a platform reset, and a plan built again (70_reset_and_hazards.md R190, R193). -/

namespace Sys2Proof.Machine

/-! ### A platform reset leaves no plan -/

theorem step_of_reset {s : State} {rest : List HostStep} (hq : s.hostIn = .reset :: rest) :
    step s = .next (platformReset (s.setHostIn rest)) := by
  simp only [step, nextHostStep, hq, hostStep]

theorem platformReset_plan (s : State) (slot : Nat) : (platformReset s).plan slot = PlanSlot.reset :=
  slotAt_replicate_reset _ _

/-- Where slot 0 holds no plan, `CRT` selects badly: a count of 0 is out of range, and any other takes in slot 0
(R161). -/
theorem exec_crt_of_slot_zero_not_valid {s : State} (h : (s.plan 0).valid = false) (cnt src : Nat) :
    exec (.crt cnt src) s = .next (raise .badSelect s) := by
  by_cases hrange : 1 ≤ cnt ∧ cnt ≤ s.params.nplans ∧ src + cnt ≤ s.params.nbuf
  · exact exec_crt_of_not_valid hrange ⟨0, hrange.1, h⟩
  · exact exec_crt_of_out_of_range hrange

/-- Settles O11: every slot is as reset leaves it (`platformReset_plan`), so the checks of the transforms and of `CRT`
find no plan. -/
theorem platformResetLeavesNoPlan : Obligations.PlatformResetLeavesNoPlan := by
  intro s rest hq
  have hslot (slot : Nat) := platformReset_plan (s.setHostIn rest) slot
  have hvalid (slot : Nat) : ((platformReset (s.setHostIn rest)).plan slot).valid = false := by rw [hslot]; rfl
  refine ⟨_, step_of_reset hq, rfl, rfl, rfl, rfl, rfl, rfl, rfl, rfl, fun slot => ?fields, fun _ => rfl,
    fun slot src dst => ?transforms, exec_crt_of_slot_zero_not_valid (hvalid 0)⟩
  case fields => rw [hslot]; exact ⟨rfl, rfl, rfl, rfl⟩
  case transforms => exact transformsRejectBadSelections _ slot src dst (.inr (.inr (.inr (hvalid slot))))

/-! ### Building a plan again -/

/-- Storing a plan where it already stands changes no word (R193). -/
theorem storePlan_storePlan_word (s : State) (slot : Nat) (n : Int) (d : PlanData) (a : Addr) :
    (storePlan (storePlan s slot n d) slot n d).word a = (storePlan s slot n d).word a := by
  simp only [storePlan_word]
  split_ifs <;> rfl

/-- Storing a plan where it already stands changes no slot (R193). -/
theorem storePlan_storePlan_plan (s : State) (slot : Nat) (n : Int) (d : PlanData) (k : Nat) :
    (storePlan (storePlan s slot n d) slot n d).plan k = (storePlan s slot n d).plan k := by
  simp only [storePlan_plan]
  split_ifs <;> rfl

/-- Settles O36: the plan is computed from the parameters and the operands, which `TWID` leaves alone, so the second
run computes the plan of the first and stores it where it already stands. -/
theorem twidAgainGivesTheSamePlan : Obligations.TwidAgainGivesTheSamePlan := by
  intro s t slot h herr
  obtain ⟨e, rfl⟩ | ⟨_, ⟨hslot, d, hd, rfl⟩, rfl⟩ := exec_cases h
  · exact absurd herr (errField_raise_ne_zero e s)
  have hagain : exec (.twid slot) (storePlan s slot s.a d) =
      .next ((storePlan (storePlan s slot s.a d) slot s.a d).setStatus (statusWord 0)) := exec_twid_ok hslot hd
  exact ⟨_, (exec_setStatus _ _ _).trans hagain, storePlan_storePlan_plan s slot s.a d,
    storePlan_storePlan_word s slot s.a d, rfl, rfl⟩

end Sys2Proof.Machine
end
